-- ==== Sys2Proof/Word.lean ====
section
/-! DEFINITION. The widths of the values PCONFIG handles (spec 00 R7: bit 0 is the least significant bit, every comparison is unsigned). -/

namespace Sys2Proof

/-- A byte is 8 bits (R7). -/
abbrev Byte := BitVec 8

/-- The 16-bit KeyID and ENC_ALG fields (R56). -/
abbrev Word16 := BitVec 16

/-- `EAX`, `EBX`, failure reasons, KEYID_CTRL (R21, R22, R56). -/
abbrev Word32 := BitVec 32

/-- `RAX` to `RDX`, the instruction pointer, linear addresses, the two MSRs (R21 to R25, R33, R34). -/
abbrev Word64 := BitVec 64

end Sys2Proof
end

