-- ==== Sys2Proof/Syntax.lean ====
section
/-! DEFINITION. The instruction the opcode table lists (spec 30 R70), with the prefixes of R72 and R73 that may stand before it. -/

namespace Sys2Proof

/-- The six segment-override prefixes of R73. -/
inductive SegmentOverride where
  | es
  | cs
  | ss
  | ds
  | fs
  | gs
deriving DecidableEq, Repr

/-- The legacy and REX prefixes of R72 and R73. -/
inductive Prefix where
  /-- LOCK, listed under `#UD` (R72). -/
  | lock
  /-- REPNE, listed under `#UD` (R72). -/
  | repne
  /-- REP/REPE, listed under `#UD` (R72). -/
  | rep
  /-- Operand-size override, listed under `#UD` (R72). -/
  | operandSize
  /-- Address-size override, not in the source (R73). -/
  | addressSize
  /-- Segment override, not in the source (R73). -/
  | segment (reg : SegmentOverride)
  /-- REX, a prefix in 64-bit mode only, not in the source (R73). -/
  | rex (wrxb : BitVec 4)
deriving DecidableEq, Repr

/-- The two VEX forms of R72, with the payload bytes that follow C5 or C4. -/
inductive VexForm where
  | two (payload : Byte)
  | three (payload1 payload2 : Byte)
deriving DecidableEq, Repr

/-- One constructor per row of the opcode table. `PCONFIG` has no explicit operand (R74): the fields say only which
prefixes stand before it, in fetch order, and whether a VEX prefix carries the opcode. -/
inductive Instr where
  | pconfig (prefixes : List Prefix) (vex : Option VexForm)
deriving DecidableEq, Repr

end Sys2Proof
end

