-- ==== Sys2Proof/Decode.lean ====
section
/-! DEFINITION. From bytes to the instruction and back (spec 30 R70 to R73, R86): total, every other byte string rejected by name. -/

namespace Sys2Proof

/-- Why no instruction stands at the program counter (R86). -/
inductive Reject where
  /-- There is no byte at all. -/
  | noByte
  /-- "anything else is Refuse(not PCONFIG)" (R86). -/
  | notPconfig
deriving DecidableEq, Repr

/-- The byte of a segment-override prefix (R73, G1). -/
def overrideByte : SegmentOverride → Byte
  | .es => 0x26
  | .cs => 0x2E
  | .ss => 0x36
  | .ds => 0x3E
  | .fs => 0x64
  | .gs => 0x65

/-- The byte of a prefix (R72, R73, G1). -/
def prefixByte : Prefix → Byte
  | .lock => 0xF0
  | .repne => 0xF2
  | .rep => 0xF3
  | .operandSize => 0x66
  | .addressSize => 0x67
  | .segment r => overrideByte r
  | .rex wrxb => (4 : BitVec 4) ++ wrxb

/-- The prefix a byte is (R72, R73); 40H to 4FH are REX prefixes in 64-bit mode only (R73; log entry 13). -/
def prefixOfByte (long64 : Bool) (b : Byte) : Option Prefix :=
  if b = 0xF0 then some .lock
  else if b = 0xF2 then some .repne
  else if b = 0xF3 then some .rep
  else if b = 0x66 then some .operandSize
  else if b = 0x67 then some .addressSize
  else if b = 0x26 then some (.segment .es)
  else if b = 0x2E then some (.segment .cs)
  else if b = 0x36 then some (.segment .ss)
  else if b = 0x3E then some (.segment .ds)
  else if b = 0x64 then some (.segment .fs)
  else if b = 0x65 then some (.segment .gs)
  else if long64 && b.extractLsb' 4 4 == 4 then some (.rex (b.extractLsb' 0 4))
  else none

/-- Whether a prefix is one of those that make the instruction undefined (R72: LOCK, REP, operand size). -/
def prefixListed : Prefix → Bool
  | .lock => true
  | .repne => true
  | .rep => true
  | .operandSize => true
  | .addressSize => false
  | .segment _ => false
  | .rex _ => false

/-- Whether a prefix exists in the mode: REX only in 64-bit mode (R73). -/
def prefixOk (long64 : Bool) : Prefix → Bool
  | .rex _ => long64
  | _ => true

/-- Whether the payload bytes make C5 or C4 a VEX prefix carrying map 0F (R72). PRESUMED, log entry 12: the map number is
bits 4:0 of the three-byte form's first payload byte, and outside 64-bit mode C5 and C4 are VEX only before bits 7:6 = 11. -/
def vexOk (long64 : Bool) : VexForm → Bool
  | .two p => long64 || p.extractLsb' 6 2 == 3
  | .three p _ => p.extractLsb' 0 5 == 1 && (long64 || p.extractLsb' 6 2 == 3)

/-- The run of prefixes at the head of the bytes, and what follows it. -/
def decodePrefixes (long64 : Bool) : List Byte → List Prefix × List Byte
  | [] => ([], [])
  | b :: bs =>
    match prefixOfByte long64 b with
    | some p => (p :: (decodePrefixes long64 bs).1, (decodePrefixes long64 bs).2)
    | none => ([], b :: bs)

/-- The opcode after the prefixes: `0F 01 C5` (R70), or its VEX forms (R72), and the bytes that follow. -/
def decodeOpcode (long64 : Bool) : List Byte → Option (Option VexForm × List Byte)
  | b0 :: b1 :: b2 :: rest =>
    if b0 = 0x0F ∧ b1 = 0x01 ∧ b2 = 0xC5 then some (none, rest)
    else
      match rest with
      | [] => none
      | b3 :: rest3 =>
        if b0 = 0xC5 ∧ b2 = 0x01 ∧ b3 = 0xC5 ∧ vexOk long64 (.two b1) = true then some (some (.two b1), rest3)
        else
          match rest3 with
          | [] => none
          | b4 :: rest4 =>
            if b0 = 0xC4 ∧ b3 = 0x01 ∧ b4 = 0xC5 ∧ vexOk long64 (.three b1 b2) = true then
              some (some (.three b1 b2), rest4)
            else none
  | _ => none

/-- The decoder of R86: the instruction at the head of the bytes and the bytes after it, or the name of the rejection.
`long64` says whether the processor is in 64-bit mode, on which only the REX and VEX prefixes depend. -/
def decode (long64 : Bool) (bytes : List Byte) : Except Reject (Instr × List Byte) :=
  match bytes with
  | [] => .error .noByte
  | _ :: _ =>
    match decodeOpcode long64 (decodePrefixes long64 bytes).2 with
    | some (vex, rest) => .ok (.pconfig (decodePrefixes long64 bytes).1 vex, rest)
    | none => .error .notPconfig

/-- The opcode bytes, with the VEX prefix where there is one (R70, R72). -/
def encodeOpcode : Option VexForm → List Byte
  | none => [0x0F, 0x01, 0xC5]
  | some (.two p) => [0xC5, p, 0x01, 0xC5]
  | some (.three p q) => [0xC4, p, q, 0x01, 0xC5]

/-- The bytes of an instruction in fetch order (R70, R72, R73). -/
def encode : Instr → List Byte
  | .pconfig prefixes vex => prefixes.map prefixByte ++ encodeOpcode vex

/-- The bytes of a table word in address order (DEDUCED, log entry 6). The table writes the first fetched byte MOST significant (R70 and the
row's byte_order_note), so byte `i` of an `nbits`-bit word is its bits `nbits-8i-1` down to `nbits-8i-8`. -/
def tableBytes (nbits w : Nat) : List Byte :=
  (List.range (nbits / 8)).map fun i => BitVec.ofNat 8 (w >>> (8 * (nbits / 8 - 1 - i)))

/-- The instruction the decoder reads from a word numbered as the opcode table numbers it. -/
def decodeTableWord (nbits w : Nat) : Option Instr :=
  match decode false (tableBytes nbits w) with
  | .ok (i, _) => some i
  | .error _ => none

end Sys2Proof
end

