-- ==== Sys2Proof/Config.lean ====
section
/-! DEFINITION. The implementation parameters of spec 00 R5 as one record of plain data, and the values no rule fixes as opaque constants (R11).
The record stands in `State.config`: no step writes it (R5, R45), and a statement about every state is a statement about every configuration. -/

namespace Sys2Proof

/-- The five operating modes of R6 and R28; there is no other. -/
inductive Mode where
  | real
  | protected32
  | v86
  | compat
  | long64
deriving DecidableEq, Repr, Inhabited

/-- The data segment `DS` as R30 gives it: a base, and a limit in the modes that have one (`none`: no limit condition applies). -/
structure Segment where
  base : Word64
  limit : Option Word32
deriving DecidableEq, Repr, Inhabited

/-- One refusal of `Config.SegCheck` (R5, R57, D8, D22): through a DS equal to `ds`, in mode `mode`, an access that touches
an offset of `first` to `last` answers Fault. A null selector, an access-right or present check, an expand-down limit or a
real-address-mode limit is such an entry; the limit of R57 itself is `Segment.limit`. -/
structure SegFault where
  mode : Mode
  ds : Segment
  first : Nat
  last : Nat
deriving DecidableEq, Repr, Inhabited

/-- What `Config.Translate` (R5, R59) answers for one page: a physical page frame, or `#PF` with a fault code and the byte
of the 192-byte operand that the processor reports (R60: which one is unspecified; R150: whatever `Translate` returns). -/
inductive PageAnswer where
  | frame (number : Nat)
  | pageFault (code : Nat) (byte : Fin 192)
deriving DecidableEq, Repr, Inhabited

/-- The paging state that `Config.Translate` reads (R5): an answer for each listed page, and one rule for the rest.
A page is 4096 bytes (G12, PRESUMED by the spec); `unlisted = none` maps every other page to the frame of its own number. -/
structure Paging where
  listed : List (Nat × PageAnswer)
  unlisted : Option (Nat × Fin 192)
deriving DecidableEq, Repr, Inhabited

/-- What the platform answers to ONE execution of PCONFIG that passed every check: the draws of R11.
`rndData` and `rndTweak` hold 64 bytes each, of which an algorithm uses the first `KeyBytes` (R124). -/
structure PlatformAnswer where
  lockOk : Bool
  entropyDataOk : Bool
  entropyTweakOk : Bool
  rndData : Vector Byte 64
  rndTweak : Vector Byte 64
  platformFailure : Option Word32
deriving DecidableEq, Repr, Inhabited

/-- The implementation parameters (R5), less `Translate`, whose paging state is the processor's (`Paging`). -/
structure Config where
  /-- `PCONFIG_ENUM` = CPUID.7.0:EDX[18] (R31). -/
  pconfigEnum : Bool
  /-- `SUPPORTED_TARGETS`, the identifiers CPUID leaf 1BH enumerates (R32). -/
  supportedTargets : List Nat
  /-- `HAS_64BIT_MODE`: whether compatibility and 64-bit mode exist (R5). -/
  has64BitMode : Bool
  /-- `TME_CAPABILITY`, the constant content of the IA32_TME_CAPABILITY MSR (R34). -/
  tmeCapability : Word64
  /-- `KeyBytes` (R5, R129): for each ENC_ALG bit the index of the LAST byte of a 64-byte key field that the algorithm
  uses, so that the number of bytes used is one more and lies in 1 to 64. -/
  lastKeyByte : Vector (Fin 64) 16
  /-- `EXTRA_FAILURE_REASONS` (R104): non-zero reasons besides 2 and 5 (R5); an entry 0, 2 or 5 is none and never reported. -/
  extraFailureReasons : List Word32
  /-- `SegCheck` (R5, R57), as the list of the accesses it answers with Fault. -/
  segFaults : List SegFault
  /-- `LINEAR_BITS` (R5, R58). -/
  linearBits : Nat
  /-- The physical ranges (first, last) that are not ordinary memory (R62, D6, D7). -/
  deviceRanges : List (Nat × Nat)
deriving DecidableEq, Repr, Inhabited

/-- FREE VALUE: the platform's parameters where the spec gives no value (R5: "per platform"). `State.reset` takes from it
what no rule and no log entry names; nothing in Lean can evaluate it. -/
opaque Config.platform : Config

/-- FREE VALUE (R11): the platform's answer to the draw numbered `n`, where the state's input queue holds none. -/
opaque Config.freeAnswer (n : Nat) : PlatformAnswer

/-- FREE VALUE (R21, R99, D3): bits 63:32 of RAX after the 32-bit result write of the draw numbered `n`. -/
opaque Config.freeRaxHigh (n : Nat) : Word32

/-- FREE VALUE (R20, R163): which logical processor executes next at turn `n`, where the schedule names none. -/
opaque Config.freeTurn (n : Nat) : Nat

end Sys2Proof
end

