-- ==== Sys2Proof/Machine/State.lean ====
section
/-! DEFINITION. The machine's state (spec 10 R20 to R45) as plain data, the reasons a step stops, and the state after reset. -/

namespace Sys2Proof.Machine

/-- Memory as (address, byte) pairs with rising addresses and no byte equal to what an unlisted address reads as. -/
abbrev Memory := List Host.Cell

/-- The six RFLAGS status flags PCONFIG writes, as six separate bits (R26). -/
structure Flags where
  zf : Bool
  cf : Bool
  pf : Bool
  af : Bool
  ofl : Bool
  sf : Bool
deriving DecidableEq, Repr

/-- An entry of the TME-MK key table (R37). -/
inductive KeyEntry where
  /-- Follow the configuration of TME: KEYID_CLEAR_KEY, and every KeyID on activation. -/
  | tmeDefault
  /-- Do not encrypt: KEYID_NO_ENCRYPT. -/
  | noEncrypt
  /-- Encrypt with the selected algorithm and keys: KEYID_SET_KEY_DIRECT, KEYID_SET_KEY_RANDOM. -/
  | encrypt (alg : Fin 16) (dataKey tweakKey : List Byte)
deriving DecidableEq, Repr

/-- Where the program of a logical processor stands (R185): "a finite byte string placed at a base address". Its bytes are
those of instruction memory at `base` to `base + length - 1`; its end is `base + length`, one past the last byte. -/
structure Program where
  base : Nat
  length : Nat
deriving DecidableEq, Repr

/-- The state of one logical processor (R20 to R30, R33). -/
structure Processor where
  /-- R21. -/
  rax : Word64
  /-- R22. -/
  rbx : Word64
  /-- R23. -/
  rcx : Word64
  /-- R23. -/
  rdx : Word64
  /-- The instruction pointer (R25): outside 64-bit mode a 32-bit value, held zero-extended. -/
  pc : Word64
  /-- ZF, CF, PF, AF, OF, SF (R26). -/
  flags : Flags
  /-- Every other RFLAGS bit (R27), whose layout the source does not give (log entry 30). -/
  otherFlags : Word64
  /-- R28. -/
  mode : Mode
  /-- R28. -/
  cpl : Fin 4
  /-- CS.D (R29). -/
  csD : Bool
  /-- DS (R30). -/
  ds : Segment
  /-- The IA32_TME_ACTIVATE MSR, index 982H (R33). -/
  tmeActivate : Word64
  /-- The paging state `Config.Translate` reads (R5, R59). -/
  paging : Paging
  /-- The program the processor runs (R185); like the text (R45, R67), no step writes it (log entry 5). -/
  program : Program
  /-- The MODEL's own: tells the processors apart across hand-overs; no step reads or writes it (log entry 4). -/
  number : Nat
deriving DecidableEq, Repr

/-- The machine (R20): the logical processor that executes the next step, the others, and the platform they share. -/
structure State where
  cpu : Processor
  /-- The other logical processors (R20, R163). -/
  others : List Processor
  /-- The TME-MK key table (R37): (KeyID, entry) pairs with rising KeyIDs, none listed as `tmeDefault`. -/
  keyTable : List (Nat × KeyEntry)
  /-- Data memory by physical address (R50, R59). -/
  mem : Memory
  /-- Instruction memory (R50, R67): the program text, which no step writes (log entry 5). -/
  text : Memory
  /-- The implementation parameters (R5); no step writes them (log entry 3). -/
  config : Config
  /-- The MODEL's own: the platform's answers still to come (R11, R40, R41), the next one first. -/
  answers : List PlatformAnswer
  /-- The MODEL's own: how many draws were made; numbers the free values. -/
  draws : Nat
  /-- The MODEL's own: which processor executes next (R20, R163), the next choice first. -/
  schedule : List Nat
  /-- The MODEL's own: how many choices were made; numbers the free values. -/
  turns : Nat
deriving DecidableEq, Repr

/-- How a step stops at an exception. The spec does not describe delivery (R155, D15), so an exception is the last outcome
of a run and the state before it is the state at it. -/
inductive Fault where
  /-- `#UD`, no error code (R140, R141): raised by `raise`; safe (the run stops where the processor would enter a handler). -/
  | invalidOpcode
  /-- `#GP`, with error code 0 or, in real-address mode, none (R140, R150): raised by `raise`; safe, as above. -/
  | generalProtection (errorCode : Option Nat)
  /-- `#PF` with the fault code and address `Translate` answers (R140, R150): raised by `raise`; safe, as above. -/
  | pageFault (code : Nat) (address : Word64)
deriving DecidableEq, Repr

/-- How a step stops where the spec gives no meaning (R10, R166). All are safe: the model stops where a processor may go on. -/
inductive Refusal where
  /-- No meaning was written for the instruction: raised by no arm of `exec`; safe. -/
  | notModelled (mnemonic : String)
  /-- The run of every logical processor has ended (R185), there is nothing left to step: raised by `step`; safe. -/
  | endOfProgram
  /-- The program counter is outside the processor's program and not at its end (R185): raised by `step`; safe. -/
  | outsideProgram
  /-- The bytes at the program counter are not PCONFIG (R86, D1): raised by `step`; safe. -/
  | notPconfig
  /-- A prefix of R73 and none of R72 (D12): raised by `execPconfig`; safe. -/
  | unlistedPrefix
  /-- A mode and CPL, or a mode of a processor without it, that no processor is in (R28, R166, D26): raised by
  `execPconfig`; safe. -/
  | illFormedMode
  /-- The three bytes or the successor address would leave the address space (R25, D2): raised by `execPconfig`; safe. -/
  | addressSpaceEnd
  /-- The structure is not in ordinary memory (R62, D6, D7): raised by `execPconfig`; safe. -/
  | notOrdinaryMemory
deriving DecidableEq, Repr

/-- A logical processor right after reset. R44 and R171 state no value: every one is a DESIGN CHOICE, log entry 1. -/
def Processor.reset : Processor where
  rax := 0
  rbx := 0
  rcx := 0
  rdx := 0
  pc := 0
  flags := { zf := false, cf := false, pf := false, af := false, ofl := false, sf := false }
  otherFlags := 0
  mode := .real
  cpl := 0
  csD := false
  ds := { base := 0, limit := none }
  tmeActivate := 0
  paging := { listed := [], unlisted := none }
  program := { base := 0, length := 0 }
  number := 0

/-- The machine right after reset: every KeyID follows TME (R42, R43, R170); the rest is named in log entries 1 to 5. -/
def State.reset : State where
  cpu := Processor.reset
  others := []
  keyTable := []
  mem := []
  text := []
  config :=
    { Config.platform with
      pconfigEnum := true
      supportedTargets := [1]
      has64BitMode := true
      extraFailureReasons := [] }
  answers := []
  draws := 0
  schedule := []
  turns := 0

end Sys2Proof.Machine
end

