-- ==== Sys2Proof/Machine/Ops.lean ====
section
/-! DEFINITION. The named operations over tables, memory, registers and the platform's queues, and taking an exception. -/

namespace Sys2Proof.Machine

/-! ## Tables of (key, value) pairs with rising keys -/

/-- The value a table lists at a key. -/
def tableFind {α : Type} : List (Nat × α) → Nat → Option α
  | [], _ => none
  | (a, v) :: t, k => if a = k then some v else tableFind t k

/-- The table with the value listed at the key, in its place. -/
def tablePut {α : Type} : List (Nat × α) → Nat → α → List (Nat × α)
  | [], k, v => [(k, v)]
  | (a, u) :: t, k, v =>
    if k < a then (k, v) :: (a, u) :: t else if a = k then (k, v) :: t else (a, u) :: tablePut t k v

/-- The table without the key. -/
def tableErase {α : Type} (t : List (Nat × α)) (k : Nat) : List (Nat × α) :=
  t.filter fun e => e.1 != k

/-- The table that answers `v` at the key, where an unlisted key answers `d`: writing `d` removes the key. -/
def tableSet {α : Type} [DecidableEq α] (d : α) (t : List (Nat × α)) (k : Nat) (v : α) : List (Nat × α) :=
  if v = d then tableErase t k else tablePut t k v

/-- The keys of the table rise strictly. -/
abbrev tableSorted {α : Type} (t : List (Nat × α)) : Prop := t.Pairwise fun a b => a.1 < b.1

/-- The canonical form of a table whose unlisted keys answer `d`: rising keys, and no key listed with `d`. -/
abbrev tableWf {α : Type} (d : α) (t : List (Nat × α)) : Prop := tableSorted t ∧ ∀ e ∈ t, e.2 ≠ d

/-! ## Memory -/

/-- What a byte of data memory that nothing has written reads as. DESIGN CHOICE, log entry 2: the spec gives none (R44). -/
def unwrittenByte : Byte := 0

/-- The byte of data memory at a physical address. -/
def readByte (m : Memory) (a : Nat) : Byte := (tableFind m a).getD unwrittenByte

/-- Data memory with one byte written (`MemWrite` of R8, "used by no rule": PCONFIG writes no memory, R62). -/
def writeByte (m : Memory) (a : Nat) (v : Byte) : Memory := tableSet unwrittenByte m a v

/-- The canonical form of data memory. -/
abbrev Memory.wf (m : Memory) : Prop := tableWf unwrittenByte m

/-- `MemRead` of R8: `n` bytes from a physical address, the byte at the address first. -/
def readBytes (m : Memory) (a n : Nat) : List Byte := (List.range n).map fun i => readByte m (a + i)

/-- Data memory with a byte string written from an address on. -/
def writeBytes (m : Memory) (a : Nat) : List Byte → Memory
  | [] => m
  | b :: bs => writeBytes (writeByte m a b) (a + 1) bs

/-! ## Instruction memory -/

/-- The bytes of program text from an address on, up to the first address that holds none, at most `fuel` of them. -/
def textRun (t : Memory) (a : Nat) : Nat → List Byte
  | 0 => []
  | fuel + 1 =>
    match tableFind t a with
    | none => []
    | some b => b :: textRun t (a + 1) fuel

/-- The end of a program: the address one past its last byte (R185). -/
def Program.finish (p : Program) : Nat := p.base + p.length

/-- The run of a logical processor has ended: its `pc` equals the address one past the last byte of its program (R185). -/
def Processor.ended (p : Processor) : Bool := p.pc.toNat == p.program.finish

/-- The bytes the fetch reads: those of the processor's own program from the program counter on, in address order (R55,
R70, R185), so that text that stands behind the program is never fetched. R86 applies no length limit. -/
def fetchBytes (s : State) : List Byte :=
  if s.cpu.program.base ≤ s.cpu.pc.toNat then
    textRun s.text s.cpu.pc.toNat (s.cpu.program.finish - s.cpu.pc.toNat)
  else []

/-- Program text with a byte string stored from an address on. -/
def storeText (t : Memory) (a : Nat) : List Byte → Memory
  | [] => t
  | b :: bs => storeText (tablePut t a b) (a + 1) bs

/-! ## The key table -/

/-- The entry of the key table at a KeyID: `TmeDefault` where none is listed (R37, R43, D24). -/
def keyEntry (t : List (Nat × KeyEntry)) (k : Nat) : KeyEntry := (tableFind t k).getD .tmeDefault

/-- `KeyTable[k] <- e` (R8). -/
def State.setKeyEntry (s : State) (k : Nat) (e : KeyEntry) : State :=
  { s with keyTable := tableSet .tmeDefault s.keyTable k e }

/-- The number of bytes of each key field that the algorithm of an ENC_ALG bit uses (R5, R129). -/
def keyBytes (c : Config) (alg : Fin 16) : Nat := (c.lastKeyByte[alg] : Fin 64).val + 1

/-! ## The platform's answers -/

/-- The platform's answer to this execution (R11; log entry 7): the next of the queue, or a free value. -/
def State.answer (s : State) : PlatformAnswer := s.answers.headD (Config.freeAnswer s.draws)

/-- The state once this execution's draws are made. -/
def State.drawn (s : State) : State := { s with answers := s.answers.tail, draws := s.draws + 1 }

/-! ## Registers -/

/-- `EAX`, the low half of RAX (R21). -/
def eax (p : Processor) : Word32 := p.rax.extractLsb' 0 32

/-- `EBX`, the low half of RBX (R22). -/
def ebx (p : Processor) : Word32 := p.rbx.extractLsb' 0 32

/-- The write of a 32-bit result by operand size (R21, R76, R99): all of RAX, zero-extended, in 64-bit mode; elsewhere EAX,
with `high`, a free value, in bits 63:32 (D3; log entry 9). -/
def resultRax (mode : Mode) (high result : Word32) : Word64 :=
  match mode with
  | .long64 => result.setWidth 64
  | .real | .protected32 | .v86 | .compat => high ++ result

/-- Step 17 of R90 (R99): the result in RAX or EAX. -/
def State.writeResult (s : State) (result : Word32) : State :=
  { s with cpu := { s.cpu with rax := resultRax s.cpu.mode (Config.freeRaxHigh s.draws) result } }

/-- The length of the one encoding that executes (R70, R86). -/
def pconfigLength : Nat := 3

/-- Step 19 of R90 (R101; the spec's decision D2, log entry 25): the instruction pointer moves past the instruction. -/
def State.advancePc (s : State) : State :=
  { s with cpu := { s.cpu with pc := s.cpu.pc + BitVec.ofNat 64 pconfigLength } }

/-! ## Exceptions -/

/-- The three exceptions PCONFIG raises (R140). -/
inductive Exn where
  | ud
  | gp
  | pf (code : Nat) (address : Word64)
deriving DecidableEq, Repr

/-- The error code of `#GP`: none in real-address mode, 0 elsewhere (R140, R146, C11). -/
def gpErrorCode : Mode → Option Nat
  | .real => none
  | .protected32 => some 0
  | .v86 => some 0
  | .compat => some 0
  | .long64 => some 0

/-- What an exception records (R150). -/
def exnFault (mode : Mode) : Exn → Fault
  | .ud => .invalidOpcode
  | .gp => .generalProtection (gpErrorCode mode)
  | .pf code address => .pageFault code address

/-- The vector of an exception (R140; the numbers are G6, PRESUMED by the spec): a record for the reader, no rule uses it. -/
def faultVector : Fault → Nat
  | .invalidOpcode => 6
  | .generalProtection _ => 13
  | .pageFault _ _ => 14

/-- Raising an exception: the outcome `Fault(E, c)`, no state written (R100, R154, R155). The spec gives no vector, saved
register or handler, and no return (R155, R156, D15; log entry 11). -/
def raise (e : Exn) (s : State) : Host.Outcome State Fault Refusal := .fault (exnFault s.cpu.mode e)

/-- A check that ends the execution: an exception, or a refusal by name. -/
inductive Stop where
  | exception (e : Exn)
  | refusal (r : Refusal)
deriving DecidableEq, Repr

/-- The outcome of a check that ends the execution. -/
def stop (x : Stop) (s : State) : Host.Outcome State Fault Refusal :=
  match x with
  | .exception e => raise e s
  | .refusal r => .refused r

/-- The refusal of bytes that hold no instruction (R86): no byte at all is no byte of the program. -/
def rejectRefusal : Reject → Refusal
  | .noByte => .outsideProgram
  | .notPconfig => .notPconfig

/-! ## Logical processors -/

/-- Which processor executes next (R20, R163): the next choice of the schedule, or a free value. -/
def State.turn (s : State) : Nat := s.schedule.headD (Config.freeTurn s.turns)

/-- Who executes after a step: 0, and any number beyond the others, keeps the processor; `j + 1` puts the `j`-th of the
others in its place. A machine of one processor has no choice to make (DESIGN CHOICE, log entry 10). -/
def handOver (s : State) : State :=
  match s.others with
  | [] => s
  | _ :: _ =>
    let s' : State := { s with schedule := s.schedule.tail, turns := s.turns + 1 }
    match s.turn with
    | 0 => s'
    | j + 1 =>
      match s.others[j]? with
      | none => s'
      | some p => { s' with cpu := p, others := s.others.set j s.cpu }

/-- The turn of a processor whose run has ended (R185): it executes nothing and hands over; once every run has ended there
is no step (DESIGN CHOICE, log entry 33). -/
def endedTurn (s : State) : Host.Outcome State Fault Refusal :=
  if s.others.all Processor.ended = true then .refused .endOfProgram else .next (handOver s)

end Sys2Proof.Machine
end

