-- ==== Sys2Proof/Machine/Flags.lean ====
section
/-! DEFINITION. The flags PCONFIG writes (spec 10 R26, 40 R97); every other RFLAGS bit is a field no operation writes (R27). -/

namespace Sys2Proof.Machine

/-- The six flags of a completed execution: ZF says whether a failure is reported, the others are 0 (R26, R97). -/
def completionFlags (result : Word32) : Flags where
  zf := decide (result ≠ 0)
  cf := false
  pf := false
  af := false
  ofl := false
  sf := false

/-- Steps 13 to 18 of R90 as far as flags are written. -/
def State.writeFlags (s : State) (result : Word32) : State :=
  { s with cpu := { s.cpu with flags := completionFlags result } }

/-- The tail every completed execution reaches (R95, R96): result, flags, instruction pointer. -/
def State.complete (s : State) (result : Word32) : State := ((s.writeResult result).writeFlags result).advancePc

end Sys2Proof.Machine
end

