-- ==== Sys2Proof/Machine/Operands.lean ====
section
/-! DEFINITION. The implicit operands of PCONFIG (spec 30 R75): address formation and the load (20 R51 to R62), the fields of
the loaded structure (41 R115), and the fields of the two MSRs (10 R33, R34). -/

namespace Sys2Proof.Machine

/-! ## Address formation -/

/-- Whether operands and addresses are 64 bits wide (R76): in 64-bit mode only; CS.D takes no part (R29). -/
def wide (mode : Mode) : Bool := mode == .long64

/-- The offset of the structure in DS (R51): RBX in 64-bit mode, EBX zero-extended elsewhere. -/
def structOffset (p : Processor) : Word64 := if wide p.mode then p.rbx else (ebx p).setWidth 64

/-- The linear address of an offset in DS (R52; PRESUMED by the spec, log entry 17): base plus offset modulo `2^64`, outside 64-bit mode modulo `2^32`. -/
def linearAddress (p : Processor) (off : Word64) : Word64 :=
  if wide p.mode then p.ds.base + off else ((p.ds.base + off).setWidth 32).setWidth 64

/-- The structure's linear address `DS:RBX` or `DS:EBX` (R113). -/
def structAddress (p : Processor) : Word64 := linearAddress p (structOffset p)

/-- The length of the structure (R54). -/
def structLength : Nat := 192

/-- 256-byte alignment (R53), of the linear address (the spec's decision D5, log entry 19). -/
def aligned (lin : Word64) : Bool := lin.extractLsb' 0 8 == 0

/-- An address is canonical when its bits 63 down to `linearBits - 1` are all equal (R58, G12). -/
def canonical (linearBits : Nat) (a : Word64) : Bool :=
  (List.range 64).all fun i => decide (i + 1 < linearBits) || a.getLsbD i == a.getLsbD 63

/-! ## The checks of the load -/

/-- The offset range lies within the limit of DS (R57); a segment without a limit admits every offset (R30). -/
def limitOk (ds : Segment) (off : Word64) (n : Nat) : Bool :=
  match ds.limit with
  | none => true
  | some l => decide (off.toNat + n ≤ l.toNat + 1)

/-- `Config.SegCheck(mode, DS, off, n)` (R5, R57, D8, D22): the limit in protected and compatibility mode, and every
further refusal of the platform's list (DESIGN CHOICE, log entry 15). -/
def segCheck (c : Config) (mode : Mode) (ds : Segment) (off : Word64) (n : Nat) : Bool :=
  (match mode with
    | .protected32 | .compat => limitOk ds off n
    | .real | .v86 | .long64 => true) &&
  c.segFaults.all fun f =>
    !(f.mode == mode && f.ds == ds && decide (f.first < off.toNat + n) && decide (off.toNat ≤ f.last))

/-- The check before translation (R114 (a)): the canonical form in 64-bit mode, `SegCheck` elsewhere. -/
def operandOk (c : Config) (p : Processor) : Bool :=
  if wide p.mode then canonical c.linearBits (structAddress p)
  else segCheck c p.mode p.ds (structOffset p) structLength

/-- The page size (G12, PRESUMED by the spec). -/
def pageSize : Nat := 4096

/-- The answer of `Config.Translate` for the page of a linear address (R59, R60). -/
def pageAnswer (g : Paging) (page : Nat) : PageAnswer :=
  match tableFind g.listed page with
  | some x => x
  | none =>
    match g.unlisted with
    | none => .frame page
    | some (code, byte) => .pageFault code byte

/-- `Config.Translate` (R5, R59): the physical address of a linear address, or `#PF`. Real-address mode has no paging
(R59, C5): there the physical address is the linear one (DEDUCED, log entry 16). -/
def translateAddress (p : Processor) (lin : Word64) : Except Exn Nat :=
  match p.mode with
  | .real => .ok lin.toNat
  | .protected32 | .v86 | .compat | .long64 =>
    match pageAnswer p.paging (lin.toNat / pageSize) with
    | .frame f => .ok (f * pageSize + lin.toNat % pageSize)
    | .pageFault code byte => .error (.pf code (lin + BitVec.ofNat 64 byte.val))

/-- Whether a physical range is ordinary memory (R62, D6, D7; log entry 22). -/
def ordinary (c : Config) (a n : Nat) : Bool :=
  c.deviceRanges.all fun r => !(decide (r.1 < a + n) && decide (a ≤ r.2))

/-- The alignment check and the load (R113, R114), in this order: alignment, limit or canonical form, translation,
192 bytes of ordinary memory. -/
def loadStructure (s : State) : Except Stop (List Byte) :=
  if aligned (structAddress s.cpu) = false then .error (.exception .gp)
  else if operandOk s.config s.cpu = false then .error (.exception .gp)
  else
    match translateAddress s.cpu (structAddress s.cpu) with
    | .error e => .error (.exception e)
    | .ok a =>
      if ordinary s.config a structLength = false then .error (.refusal .notOrdinaryMemory)
      else .ok (readBytes s.mem a structLength)

/-! ## Fields of MKTME_KEY_PROGRAM_STRUCT -/

/-- The byte at an offset of the loaded structure. -/
def structByte (S : List Byte) (o : Nat) : Byte := S.getD o 0

/-- `le_16(S, o)` (R8, R55): the byte at the lower offset is the less significant (PRESUMED by the spec, log entry 18). -/
def le16 (S : List Byte) (o : Nat) : Word16 := structByte S (o + 1) ++ structByte S o

/-- `le_32(S, o)` (R8, R55). -/
def le32 (S : List Byte) (o : Nat) : Word32 := le16 S (o + 2) ++ le16 S o

/-- KEYID, offset 0 (R56). -/
def keyIdField (S : List Byte) : Word16 := le16 S 0

/-- KEYID_CTRL, offset 2 (R56). -/
def ctrlField (S : List Byte) : Word32 := le32 S 2

/-- COMMAND, bits 7:0 of KEYID_CTRL (R56). -/
def commandField (S : List Byte) : Byte := (ctrlField S).extractLsb' 0 8

/-- ENC_ALG, bits 23:8 of KEYID_CTRL (R56). -/
def algField (S : List Byte) : Word16 := (ctrlField S).extractLsb' 8 16

/-- RSVD, bits 31:24 of KEYID_CTRL (R56). -/
def reservedField (S : List Byte) : Byte := (ctrlField S).extractLsb' 24 8

/-- The first `n` bytes of KEY_FIELD_1, offset 64 (R56, R129). -/
def dataKeyField (S : List Byte) (n : Nat) : List Byte := (S.drop 64).take n

/-- The first `n` bytes of KEY_FIELD_2, offset 128 (R56, R129). -/
def tweakKeyField (S : List Byte) (n : Nat) : List Byte := (S.drop 128).take n

/-- Bytewise exclusive OR of two byte strings (R7). -/
def xorBytes (a b : List Byte) : List Byte := List.zipWith (· ^^^ ·) a b

/-- The four key-programming commands (R80). -/
inductive Command where
  | setKeyDirect
  | setKeyRandom
  | clearKey
  | noEncrypt
deriving DecidableEq, Repr

/-- The command a COMMAND value names (R80, R117); 4 to 255 name none. -/
def commandOf (b : Byte) : Option Command :=
  if b = 0 then some .setKeyDirect
  else if b = 1 then some .setKeyRandom
  else if b = 2 then some .clearKey
  else if b = 3 then some .noEncrypt
  else none

/-! ## Fields of the two MSRs -/

/-- IA32_TME_ACTIVATE bit 0: the MSR is locked (R33). -/
def tmeLocked (a : Word64) : Bool := a.getLsbD 0

/-- IA32_TME_ACTIVATE bit 1: hardware encryption is enabled (R33). -/
def tmeEnabled (a : Word64) : Bool := a.getLsbD 1

/-- IA32_TME_ACTIVATE.MK_TME_KEYID_BITS, bits 35:32 (R33). -/
def keyIdBits (a : Word64) : Nat := (a.extractLsb' 32 4).toNat

/-- IA32_TME_ACTIVATE bits 63:48, the activated algorithms (R33). -/
def activatedAlgs (a : Word64) : Word16 := a.extractLsb' 48 16

/-- IA32_TME_CAPABILITY.MK_TME_MAX_KEYS, bits 50:36 (R34). -/
def maxKeys (cap : Word64) : Nat := (cap.extractLsb' 36 15).toNat

/-- TME-MK is activated: locked, enabled, and a non-zero number of KeyID bits (R112). -/
def tmeActivated (a : Word64) : Bool := tmeLocked a && tmeEnabled a && keyIdBits a != 0

/-- KEYID is one PCONFIG can program (R118). -/
def keyIdOk (a cap : Word64) (keyId : Nat) : Bool :=
  keyId != 0 && decide (keyId ≤ 2 ^ keyIdBits a - 1) && decide (keyId ≤ maxKeys cap)

/-- The number of 1 bits (R7). -/
def popcount (v : Word16) : Nat := (List.range 16).countP fun i => v.getLsbD i

/-- The algorithm ENC_ALG selects (R81, R119): the index of its one set bit, where it sets exactly one and an activated one. -/
def selectedAlg (activated encAlg : Word16) : Option (Fin 16) :=
  if popcount encAlg ≠ 1 ∨ encAlg &&& activated = 0 then none
  else (List.finRange 16).find? fun i => encAlg.getLsbD i.val

end Sys2Proof.Machine
end

