-- ==== Sys2Proof/Machine/Pconfig.lean ====
section
/-! DEFINITION. PCONFIG (spec 40 R90) and its leaf function 0, MKTME_KEY_PROGRAM (spec 41 R132). Every check stands before every
write: the checks answer a request or the reason to stop, and only a request changes the state (R100). -/

namespace Sys2Proof.Machine

/-! ## Leaf function 0, MKTME_KEY_PROGRAM -/

/-- What an execution of leaf 0 that passed every check is to do. -/
structure Request where
  keyId : Nat
  command : Command
  alg : Fin 16
  dataField : List Byte
  tweakField : List Byte
deriving DecidableEq, Repr

/-- The checks of the structure's content (R116 to R119) in the Operation's order, the same for every command (R120). -/
def checkStructure (s : State) (S : List Byte) : Except Stop Request :=
  if reservedField S ≠ 0 then .error (.exception .gp)
  else
    match commandOf (commandField S) with
    | none => .error (.exception .gp)
    | some command =>
      if keyIdOk s.cpu.tmeActivate s.config.tmeCapability (keyIdField S).toNat = false then .error (.exception .gp)
      else
        match selectedAlg (activatedAlgs s.cpu.tmeActivate) (algField S) with
        | none => .error (.exception .gp)
        | some alg =>
          .ok
            { keyId := (keyIdField S).toNat
              command := command
              alg := alg
              dataField := dataKeyField S (keyBytes s.config alg)
              tweakField := tweakKeyField S (keyBytes s.config alg) }

/-- The checks of leaf 0 (R112 to R119): activation, alignment and load, content. -/
def keyProgramChecks (s : State) : Except Stop Request :=
  if tmeActivated s.cpu.tmeActivate = false then .error (.exception .gp)
  else
    match loadStructure s with
    | .error x => .error x
    | .ok S => checkStructure s S

/-- `ENTROPY_ERROR` (R103). -/
def entropyError : Word32 := 2

/-- `DEVICE_BUSY` (R103). -/
def deviceBusy : Word32 := 5

/-- The failure the platform reports for reasons of its own (R104): one of the configured reasons, which are not 0 and are
besides `ENTROPY_ERROR` and `DEVICE_BUSY` (R5), so that only command 1 reports the first (R125) and only the lock the second (R122). -/
def platformFailure (c : Config) (a : PlatformAnswer) : Option Word32 :=
  match a.platformFailure with
  | none => none
  | some r =>
    if r ≠ 0 ∧ r ≠ entropyError ∧ r ≠ deviceBusy ∧ r ∈ c.extraFailureReasons then some r else none

/-- The new key-table entry of a command, or the failure reason (R123 to R127). The lock is held on this path (R121). -/
def commandEntry (c : Config) (a : PlatformAnswer) (r : Request) : Except Word32 KeyEntry :=
  match r.command with
  | .setKeyDirect => .ok (.encrypt r.alg r.dataField r.tweakField)
  | .setKeyRandom =>
    if a.entropyDataOk = false then .error entropyError
    else if a.entropyTweakOk = false then .error entropyError
    else
      .ok
        (.encrypt r.alg (xorBytes (a.rndData.toList.take (keyBytes c r.alg)) r.dataField)
          (xorBytes (a.rndTweak.toList.take (keyBytes c r.alg)) r.tweakField))
  | .clearKey => .ok .tmeDefault
  | .noEncrypt => .ok .noEncrypt

/-- Steps 13 and 14 of R90: the attempt to take the key-table lock (R121, R122), a failure of the platform's own (R104), and
the command. The lock is asked before the platform's own failure (DEDUCED, log entry 8). -/
def platformVerdict (c : Config) (a : PlatformAnswer) (r : Request) : Except Word32 KeyEntry :=
  if a.lockOk = false then .error deviceBusy
  else
    match platformFailure c a with
    | some reason => .error reason
    | none => commandEntry c a r

/-- The writes of leaf 0 (R122 to R128) with the completion of R95 to R101, one atomic step (R66, R102): a reported failure
leaves the key table as it is, a success writes one entry. The lock is no field: it is free between steps (R40, D16; log entry 27). -/
def performRequest (r : Request) (s : State) : State :=
  match platformVerdict s.config s.answer r with
  | .error reason => (s.complete reason).drawn
  | .ok entry => ((s.setKeyEntry r.keyId entry).complete 0).drawn

/-- Leaf function 0 (R110, R132). -/
def mktmeKeyProgram (s : State) : Host.Outcome State Fault Refusal :=
  match keyProgramChecks s with
  | .error x => stop x s
  | .ok r => .next (performRequest r s)

/-! ## The instruction -/

/-- `TargetOf` (R36): leaf 0 pertains to target 1. -/
def targetOfLeaf0 : Nat := 1

/-- The modes and privilege levels a processor can be in (R5, R28, D26): CPL 0 in real-address mode, CPL 3 in virtual-8086
mode, compatibility and 64-bit mode only on a processor that has them (log entry 24). -/
def modeOk (c : Config) (p : Processor) : Bool :=
  match p.mode with
  | .real => p.cpl == 0
  | .protected32 => true
  | .v86 => p.cpl == 3
  | .compat => c.has64BitMode
  | .long64 => c.has64BitMode

/-- The instruction's bytes and the address after it stay in the address space (R25, D2): below `2^32` outside 64-bit mode,
canonical and without a wrap in 64-bit mode (log entry 25). -/
def insideAddressSpace (c : Config) (p : Processor) : Bool :=
  if wide p.mode then
    decide (p.pc.toNat + pconfigLength < 2 ^ 64) &&
      (List.range (pconfigLength + 1)).all fun k => canonical c.linearBits (p.pc + BitVec.ofNat 64 k)
  else decide (p.pc.toNat + pconfigLength < 2 ^ 32)

/-- The gate checks of R90 steps 2 to 4 (R91 to R93). -/
def gateCheck (s : State) : Option Exn :=
  if s.config.pconfigEnum = false ∨ s.cpu.cpl ≠ 0 then some .ud
  else if eax s.cpu ≠ 0 then some .gp
  else if targetOfLeaf0 ∉ s.config.supportedTargets then some .gp
  else none

/-- PCONFIG (R90): `#UD` for a listed prefix, whatever the state (R72); a refusal for an unlisted one (R73) and for a state
or a place the spec gives no meaning (D26, D2); the gate checks; leaf 0, which is the only leaf (R77, R78, R94). -/
def execPconfig (prefixes : List Prefix) (vex : Option VexForm) (s : State) : Host.Outcome State Fault Refusal :=
  if prefixes.any prefixListed = true ∨ vex.isSome = true then raise .ud s
  else if prefixes ≠ [] then .refused .unlistedPrefix
  else if modeOk s.config s.cpu = false then .refused .illFormedMode
  else if insideAddressSpace s.config s.cpu = false then .refused .addressSpaceEnd
  else
    match gateCheck s with
    | some e => raise e s
    | none => mktmeKeyProgram s

end Sys2Proof.Machine
end

