-- ==== Sys2Proof/Machine/Step.lean ====
section
/-! DEFINITION. One step of the machine: fetch at the program counter (spec 20 R50, R67), decode (30 R86), execute, and hand over to
the processor that executes next (10 R20, 60 R163). -/

namespace Sys2Proof.Machine

/-- One step: of a processor whose run has ended (R185), its turn; of any other, fetch, decode, execute, hand over. -/
def step (s : State) : Host.Outcome State Fault Refusal :=
  if s.cpu.ended = true then endedTurn s
  else
    match decode (wide s.cpu.mode) (fetchBytes s) with
    | .error e => .refused (rejectRefusal e)
    | .ok (i, _) =>
      match exec i s with
      | .next t => .next (handOver t)
      | .fault f => .fault f
      | .refused r => .refused r

/-- The state with a table word loaded as the executing processor's program (R185), at the program counter and in the
table's byte order. -/
def State.withFetchWord (s : State) (nbits w : Nat) : State :=
  { s with
    text := storeText s.text s.cpu.pc.toNat (tableBytes nbits w)
    cpu := { s.cpu with program := { base := s.cpu.pc.toNat, length := nbits / 8 } } }

end Sys2Proof.Machine
end

