-- ==== Sys2Proof/WellFormed.lean ====
section
/-! DEFINITION. Which instructions a byte string can stand for in a mode (spec 30 R72, R73): REX prefixes only in 64-bit mode, VEX payloads that carry opcode 01 of map 0F. -/

namespace Sys2Proof

/-- Whether the encoding exists in the mode: `long64` says whether it is 64-bit mode. The form that executes has no prefix
at all (R73); the prefixed forms are well formed as byte strings and end in `#UD` or a refusal. -/
def wellFormed (long64 : Bool) : Instr → Bool
  | .pconfig prefixes vex => prefixes.all (prefixOk long64) && vex.all (vexOk long64)

end Sys2Proof
end

