-- ==== Sys2Proof/Safety.lean ====
section
/-! DEFINITION. What a well-formed state is (spec 10 R25, R28, R37, R38), how a run ends (70 R185), and the requirements of R174 and
the completion of R95 to R101 in the terms the statements use: over numbers and bits, not over the meaning's own functions. -/

namespace Sys2Proof.Machine

/-! ## Well-formed states -/

/-- A well-formed logical processor: a mode and CPL that exist (R28, D26), and outside 64-bit mode a 32-bit instruction
pointer, held zero-extended (R25). -/
abbrev Processor.legal (c : Config) (p : Processor) : Prop :=
  modeOk c p = true ∧ (p.mode ≠ .long64 → p.pc.toNat < 2 ^ 32)

/-- The keys of an entry have the length its algorithm uses (R37). -/
def KeyEntry.legal (c : Config) : KeyEntry → Prop
  | .tmeDefault => True
  | .noEncrypt => True
  | .encrypt alg dataKey tweakKey => dataKey.length = keyBytes c alg ∧ tweakKey.length = keyBytes c alg

/-- A well-formed key table (R37, R38, R118): in canonical form, KeyIDs from 1 to MK_TME_MAX_KEYS and no larger than 15
KeyID bits allow, so that KeyID 0 is `TmeDefault`, and entries with keys of the right length. -/
def keyTableLegal (c : Config) (t : List (Nat × KeyEntry)) : Prop :=
  tableWf .tmeDefault t ∧
    ∀ e ∈ t, (1 ≤ e.1 ∧ e.1 ≤ c.tmeCapability.toNat / 2 ^ 36 % 2 ^ 15 ∧ e.1 < 2 ^ 15) ∧ e.2.legal c

/-- The logical processors of a machine (R20), the one that executes next first. -/
abbrev State.processors (s : State) : List Processor := s.cpu :: s.others

/-- The program's bytes stand in instruction memory (R185: "placed at a base address"). -/
abbrev Program.placed (text : Memory) (p : Program) : Prop :=
  ∀ o < p.length, (tableFind text (p.base + o)).isSome = true

/-- A well-formed machine: processors, programs and key table as they can be, memories in canonical form, and no two
processors with one number. -/
def State.legal (s : State) : Prop :=
  (∀ p ∈ s.processors, p.legal s.config ∧ p.program.placed s.text) ∧ keyTableLegal s.config s.keyTable ∧ s.mem.wf ∧
    tableSorted s.text ∧ (s.processors.map Processor.number).Nodup

/-! ## Runs -/

/-- The run of logical processor `k` from `s` ends successfully (R185), within `n` steps of the machine that reach `t`
with no fault and no refusal recorded: its `pc` equals the address one past the last byte of its program. -/
def endsSuccessfully (k n : Nat) (s t : State) : Prop :=
  Host.Core.run Sys2Proof.core n s = .next t ∧ ∃ p ∈ t.processors, p.number = k ∧ p.ended = true

/-- The run of logical processor `k` from `s` ends unsuccessfully (R185): after `n` steps of the machine it is at its turn,
has not ended, and the step is its first fault or refusal. -/
def endsUnsuccessfully (k n : Nat) (s : State) : Prop :=
  ∃ t, Host.Core.run Sys2Proof.core n s = .next t ∧ t.cpu.number = k ∧ t.cpu.ended = false ∧ ∀ u, step t ≠ .next u

/-- An outcome with its next state changed by `f`: to compare two outcomes up to a part of the state. -/
def mapNext (f : State → State) (o : Host.Outcome State Fault Refusal) : Host.Outcome State Fault Refusal :=
  match o with
  | .next t => .next (f t)
  | .fault e => .fault e
  | .refused r => .refused r

/-! ## The requirements of R174 -/

/-- The form that executes (R70, R73): the three bytes with no prefix. -/
abbrev barePconfig : Instr := .pconfig [] none

/-- The spec gives the execution a meaning: a mode that exists (D26), a place inside the address space (D2). -/
abbrev State.meaningful (s : State) : Prop :=
  modeOk s.config s.cpu = true ∧ insideAddressSpace s.config s.cpu = true

/-- Rows 1 to 3 of R174: enumerated, CPL 0. -/
abbrev State.permitted (s : State) : Prop :=
  s.meaningful ∧ s.config.pconfigEnum = true ∧ s.cpu.cpl = 0

/-- Rows 1 to 5 of R174: and EAX = 0, and target identifier 1 enumerated. -/
abbrev State.leafSelected (s : State) : Prop :=
  s.permitted ∧ s.cpu.rax.toNat % 2 ^ 32 = 0 ∧ 1 ∈ s.config.supportedTargets

/-- MK_TME_KEYID_BITS, bits 35:32 of IA32_TME_ACTIVATE (R33). -/
abbrev Processor.keyIdBitsNumber (p : Processor) : Nat := p.tmeActivate.toNat / 2 ^ 32 % 16

/-- Row 6 of R174: locked, encryption enabled, a non-zero number of KeyID bits. -/
abbrev State.tmeReady (s : State) : Prop :=
  s.cpu.tmeActivate.getLsbD 0 = true ∧ s.cpu.tmeActivate.getLsbD 1 = true ∧ s.cpu.keyIdBitsNumber ≠ 0

/-- The offset of the structure as a number (R51): RBX in 64-bit mode, EBX elsewhere. -/
def Processor.offsetNumber (p : Processor) : Nat :=
  if p.mode = .long64 then p.rbx.toNat else p.rbx.toNat % 2 ^ 32

/-- The linear address of the structure as a number (R52). -/
def Processor.linearNumber (p : Processor) : Nat :=
  (p.ds.base.toNat + p.offsetNumber) % (if p.mode = .long64 then 2 ^ 64 else 2 ^ 32)

/-- Row 8 of R174: canonical in 64-bit mode (R58); inside the DS limit in protected and compatibility mode (R57); and
outside 64-bit mode no further refusal of `SegCheck` (D8, D22). -/
abbrev State.operandInside (s : State) : Prop :=
  (s.cpu.mode = .long64 → ∀ i : Fin 64, s.config.linearBits ≤ i.val + 1 →
    s.cpu.linearNumber.testBit i.val = s.cpu.linearNumber.testBit 63) ∧
  (s.cpu.mode = .protected32 ∨ s.cpu.mode = .compat → ∀ l ∈ s.cpu.ds.limit.toList, s.cpu.offsetNumber + 191 ≤ l.toNat) ∧
  (s.cpu.mode ≠ .long64 → ∀ f ∈ s.config.segFaults, f.mode = s.cpu.mode → f.ds = s.cpu.ds →
    s.cpu.offsetNumber + 191 < f.first ∨ f.last < s.cpu.offsetNumber)

/-- Rows 7 and 8 of R174: aligned to 256 bytes, and inside. -/
abbrev State.operandAddressable (s : State) : Prop := s.cpu.linearNumber % 256 = 0 ∧ s.operandInside

/-- Rows 7 to 9 of R174: the structure stands at the physical address `a`, in ordinary memory (R62). -/
abbrev State.operandAt (s : State) (a : Nat) : Prop :=
  s.operandAddressable ∧ translateAddress s.cpu (BitVec.ofNat 64 s.cpu.linearNumber) = .ok a ∧
  ∀ r ∈ s.config.deviceRanges, a + 191 < r.1 ∨ r.2 < a

/-- Rows 1 to 9 of R174: everything but the structure's content. -/
abbrev State.loadsAt (s : State) (a : Nat) : Prop := s.leafSelected ∧ s.tmeReady ∧ s.operandAt a

/-- A byte of the structure at the physical address `a`, as a number. -/
abbrev State.structNumber (s : State) (a o : Nat) : Nat := (readByte s.mem (a + o)).toNat

/-- Rows 10 to 13 of R174 over the bytes (R115): the structure asks for command `c` on KeyID `k` with the algorithm of
ENC_ALG bit `i`. -/
abbrev State.contentAt (s : State) (a k c : Nat) (i : Fin 16) : Prop :=
  s.structNumber a 5 = 0 ∧ (s.structNumber a 2 = c ∧ c ≤ 3) ∧
  (s.structNumber a 0 + 256 * s.structNumber a 1 = k ∧ 1 ≤ k ∧ k ≤ 2 ^ s.cpu.keyIdBitsNumber - 1 ∧
    k ≤ s.config.tmeCapability.toNat / 2 ^ 36 % 2 ^ 15) ∧
  s.structNumber a 3 + 256 * s.structNumber a 4 = 2 ^ i.val ∧ s.cpu.tmeActivate.getLsbD (48 + i.val) = true

/-- Rows 1 to 13 of R174. -/
abbrev State.requirements (s : State) (a k c : Nat) (i : Fin 16) : Prop := s.loadsAt a ∧ s.contentAt a k c i

/-- The platform grants the lock (row 14) and reports no failure of its own (R104). -/
abbrev State.granted (s : State) : Prop :=
  s.answer.lockOk = true ∧
    ∀ r ∈ s.answer.platformFailure.toList, r = 0 ∨ r = 2 ∨ r = 5 ∨ r ∉ s.config.extraFailureReasons

/-! ## Completion -/

/-- `t` is `s` after an execution that completed with `result` (R95 to R101), but for the key table: the result in RAX
(64-bit mode) or EAX; ZF = 1 exactly where it is not 0, the other five flags 0; the instruction pointer three further; one
answer of the platform used; and everything else, of this processor and of the platform, as it was. The instruction pointer's
advance is the spec's own decision (D2), the use of one answer the model's (log entry 7); RAX bits 63:32 outside 64-bit mode
are a free value, of which nothing is said (D3). -/
def State.completedAs (s t : State) (result : Word32) : Prop :=
  t.cpu.rax.extractLsb' 0 32 = result ∧
  (s.cpu.mode = .long64 → t.cpu.rax = result.setWidth 64) ∧
  t.cpu =
    { s.cpu with
      rax := t.cpu.rax
      flags := { zf := decide (result ≠ 0), cf := false, pf := false, af := false, ofl := false, sf := false }
      pc := s.cpu.pc + 3 } ∧
  t = { s with cpu := t.cpu, keyTable := t.keyTable, answers := s.answers.tail, draws := s.draws + 1 }

/-- The key table of `t` is that of `s` but for the entry of KeyID `k`, which is `e`. -/
def State.keyUpdated (s t : State) (k : Nat) (e : KeyEntry) : Prop :=
  ∀ j, keyEntry t.keyTable j = if j = k then e else keyEntry s.keyTable j

end Sys2Proof.Machine
end

