-- ==== Sys2Proof/Certificates/Slice0/Obligations.lean ====
section
/-! DEFINITION. The statements about the model, from the numbered rules of the spec. -/

open Sys2Proof Sys2Proof.Machine

/-! ## Encoding -/

/-- R70, R86, V5: the bytes written out from the encoding table decode to the instruction, in every mode, and neighbours of
the third byte do not. -/
def Obligations.TableBytesDecode : Prop :=
  (∀ long64 rest, decode long64 (0x0F :: 0x01 :: 0xC5 :: rest) = .ok (.pconfig [] none, rest)) ∧
  decode false [0x66, 0x0F, 0x01, 0xC5] = .ok (.pconfig [.operandSize] none, []) ∧
  decode false [0x2E, 0xF3, 0x0F, 0x01, 0xC5] = .ok (.pconfig [.segment .cs, .rep] none, []) ∧
  decode true [0x48, 0x0F, 0x01, 0xC5] = .ok (.pconfig [.rex 8] none, []) ∧
  decode false [0x0F, 0x01, 0xC4] = .error .notPconfig ∧
  decode false [0x0F, 0x01, 0xC6] = .error .notPconfig ∧
  decode false [0x0F, 0x0B] = .error .notPconfig ∧
  decode false [0x90] = .error .notPconfig ∧
  decodeTableWord 24 0x0F01C5 = some (.pconfig [] none)

/-- Tier 3: every encoding the mode admits, with every prefix run, is read back whole, whatever follows it. -/
def Obligations.DecodeEncodeRoundTrip : Prop :=
  ∀ (long64 : Bool) (i : Instr) (rest : List Byte), wellFormed long64 i = true →
    decode long64 (encode i ++ rest) = .ok (i, rest)

/-- What the decoder reads was encoded: it answers an instruction only for that instruction's own bytes (R86). -/
def Obligations.DecodeReadsOnlyEncodings : Prop :=
  ∀ (long64 : Bool) (bytes rest : List Byte) (i : Instr), decode long64 bytes = .ok (i, rest) →
    bytes = encode i ++ rest ∧ wellFormed long64 i = true

/-! ## The step -/

/-- A step runs the decoded instruction and then hands over to the processor that executes next. -/
def Obligations.StepRunsDecodedInstruction : Prop :=
  ∀ (s : State) (i : Instr) (rest : List Byte),
    decode (wide s.cpu.mode) (fetchBytes s) = .ok (i, rest) →
    wellFormed (wide s.cpu.mode) i = true → step s = mapNext handOver (exec i s)

/-- R86 over the bytes at the program counter: `0F 01 C5` executes; with a prefix of R72 before it, `#UD`; with prefixes of
R73 only, a refusal; every other byte string, a refusal. -/
def Obligations.StepFollowsTheDecoderRule : Prop :=
  ∀ s : State,
    (∀ rest, fetchBytes s = 0x0F :: 0x01 :: 0xC5 :: rest → step s = mapNext handOver (exec barePconfig s)) ∧
    (∀ ps vex rest, wellFormed (wide s.cpu.mode) (.pconfig ps vex) = true →
      fetchBytes s = encode (.pconfig ps vex) ++ rest →
      (∃ p ∈ ps, p = .lock ∨ p = .repne ∨ p = .rep ∨ p = .operandSize) ∨ vex ≠ none →
      step s = .fault .invalidOpcode) ∧
    (∀ ps rest, wellFormed (wide s.cpu.mode) (.pconfig ps none) = true →
      fetchBytes s = encode (.pconfig ps none) ++ rest → ps ≠ [] →
      (∀ p ∈ ps, p ≠ .lock ∧ p ≠ .repne ∧ p ≠ .rep ∧ p ≠ .operandSize) →
      step s = .refused .unlistedPrefix) ∧
    (s.cpu.pc.toNat ≠ s.cpu.program.base + s.cpu.program.length →
      (∀ i rest, wellFormed (wide s.cpu.mode) i = true → fetchBytes s ≠ encode i ++ rest) →
      step s = .refused (if fetchBytes s = [] then .outsideProgram else .notPconfig))

/-- R185, log entry 33: a processor at the address one past its program's last byte executes nothing: while another
processor's run goes on, its turn only hands over; when every run has ended, the machine has no step. A processor elsewhere
outside its program is refused. -/
def Obligations.StepAtTheProgramEnd : Prop :=
  ∀ s : State,
    (s.cpu.pc.toNat = s.cpu.program.base + s.cpu.program.length →
      ((∃ p ∈ s.others, p.pc.toNat ≠ p.program.base + p.program.length) → step s = .next (handOver s)) ∧
      ((∀ p ∈ s.others, p.pc.toNat = p.program.base + p.program.length) → step s = .refused .endOfProgram)) ∧
    (s.cpu.pc.toNat < s.cpu.program.base ∨ s.cpu.program.base + s.cpu.program.length < s.cpu.pc.toNat →
      step s = .refused .outsideProgram)

/-- R185, R67: a step reads no program text outside the executing processor's own program, so text that stands behind a
program does not go on with it. -/
def Obligations.TextOutsideTheProgramIsNotRead : Prop :=
  ∀ (s : State) (text : Memory),
    (∀ a, s.cpu.program.base ≤ a → a < s.cpu.program.base + s.cpu.program.length →
      tableFind text a = tableFind s.text a) →
    step { s with text := text } = mapNext (fun t => { t with text := text }) (step s)

/-- R185: a processor whose run has ended stays as it is, whatever the others do. -/
def Obligations.EndedProcessorStays : Prop :=
  ∀ (n : Nat) (s t : State) (p : Processor), p ∈ s.processors →
    p.pc.toNat = p.program.base + p.program.length →
    Host.Core.run Sys2Proof.core n s = .next t → p ∈ t.processors

/-- R185: no processor's run ends both successfully and unsuccessfully, however many steps either takes. -/
def Obligations.RunEndsInOneWay : Prop :=
  ∀ (k n m : Nat) (s t : State), s.legal → endsSuccessfully k n s t → ¬ endsUnsuccessfully k m s

/-- The table word stored at the program counter is the next instruction run, whatever instruction memory held before. -/
def Obligations.StoredTableWordRuns : Prop :=
  ∀ s : State, step (s.withFetchWord 24 0x0F01C5) =
    mapNext handOver (exec barePconfig (s.withFetchWord 24 0x0F01C5))

/-- R20, R163: a step's hand-over only chooses among the logical processors; none is lost, made or changed, and the shared
platform is the same. -/
def Obligations.HandOverOnlyChooses : Prop :=
  ∀ s : State,
    ((handOver s).cpu :: (handOver s).others).Perm (s.cpu :: s.others) ∧
    handOver s =
      { s with
        cpu := (handOver s).cpu
        others := (handOver s).others
        schedule := (handOver s).schedule
        turns := (handOver s).turns } ∧
    (s.others = [] → handOver s = s)

/-! ## Where PCONFIG stops -/

/-- R72: a LOCK, REP, operand-size or VEX prefix gives `#UD` in every mode, at every privilege level, for every EAX. -/
def Obligations.ListedPrefixRaisesUd : Prop :=
  ∀ (ps : List Prefix) (vex : Option VexForm) (s : State),
    (∃ p ∈ ps, p = .lock ∨ p = .repne ∨ p = .rep ∨ p = .operandSize) ∨ vex ≠ none →
    exec (.pconfig ps vex) s = .fault .invalidOpcode

/-- R73, D26, R25: the executions the spec gives no meaning are refused by name: a prefix of R73 alone; else a mode and CPL
no processor has; else a place at the end of the address space. -/
def Obligations.RefusalsByName : Prop :=
  ∀ (ps : List Prefix) (s : State),
    (∀ p ∈ ps, p ≠ .lock ∧ p ≠ .repne ∧ p ≠ .rep ∧ p ≠ .operandSize) →
    (ps ≠ [] → exec (.pconfig ps none) s = .refused .unlistedPrefix) ∧
    (ps = [] →
      ((s.cpu.mode = .real ∧ s.cpu.cpl ≠ 0) ∨ (s.cpu.mode = .v86 ∧ s.cpu.cpl ≠ 3) ∨
        ((s.cpu.mode = .compat ∨ s.cpu.mode = .long64) ∧ s.config.has64BitMode = false) →
        exec (.pconfig ps none) s = .refused .illFormedMode) ∧
      (modeOk s.config s.cpu = true → s.cpu.mode ≠ .long64 → 2 ^ 32 ≤ s.cpu.pc.toNat + 3 →
        exec (.pconfig ps none) s = .refused .addressSpaceEnd) ∧
      (modeOk s.config s.cpu = true → s.cpu.mode = .long64 →
        (2 ^ 64 ≤ s.cpu.pc.toNat + 3 ∨ canonical s.config.linearBits s.cpu.pc = false ∨
          canonical s.config.linearBits (s.cpu.pc + 3) = false) →
        exec (.pconfig ps none) s = .refused .addressSpaceEnd))

/-- R91: `#UD` where PCONFIG is not enumerated or CPL > 0, whatever EAX, RBX, the MSRs and memory hold. -/
def Obligations.NotEnumeratedOrUnprivilegedRaisesUd : Prop :=
  ∀ s : State, s.meaningful → (s.config.pconfigEnum = false ∨ 0 < s.cpu.cpl.val) →
    exec barePconfig s = .fault .invalidOpcode

/-- R147: in virtual-8086 mode every execution of the opcode ends in `#UD`. -/
def Obligations.VirtualModeRaisesUd : Prop :=
  ∀ s : State, s.meaningful → s.cpu.mode = .v86 → exec barePconfig s = .fault .invalidOpcode

/-- R78: every EAX value other than 0 is an undefined leaf and raises `#GP`, never a no-op, never a reported failure. -/
def Obligations.UndefinedLeafRaisesGp : Prop :=
  ∀ s : State, s.permitted → s.cpu.rax.toNat % 2 ^ 32 ≠ 0 →
    exec barePconfig s = .fault (.generalProtection (if s.cpu.mode = .real then none else some 0))

/-- R92: bits 63:32 of RAX take no part in any mode (the spec derives this from the source's use of EAX). -/
def Obligations.UpperHalfOfRaxIgnored : Prop :=
  ∀ (i : Instr) (s : State) (r : Word64), r.toNat % 2 ^ 32 = s.cpu.rax.toNat % 2 ^ 32 →
    exec i { s with cpu := { s.cpu with rax := r } } = exec i s

/-- R93: leaf 0 on a processor that does not enumerate target identifier 1 raises `#GP`. -/
def Obligations.UnsupportedTargetRaisesGp : Prop :=
  ∀ s : State, s.permitted → s.cpu.rax.toNat % 2 ^ 32 = 0 → 1 ∉ s.config.supportedTargets →
    exec barePconfig s = .fault (.generalProtection (if s.cpu.mode = .real then none else some 0))

/-- R112: with TME-MK not activated, `#GP`, whatever RBX, DS, the paging state and memory hold. -/
def Obligations.NotActivatedRaisesGp : Prop :=
  ∀ s : State, s.leafSelected →
    (s.cpu.tmeActivate.getLsbD 0 = false ∨ s.cpu.tmeActivate.getLsbD 1 = false ∨
      s.cpu.tmeActivate.extractLsb' 32 4 = 0) →
    exec barePconfig s = .fault (.generalProtection (if s.cpu.mode = .real then none else some 0))

/-- R53, R113: a structure that is not 256-byte aligned raises `#GP` in any mode, before memory is touched. -/
def Obligations.MisalignedRaisesGp : Prop :=
  ∀ s : State, s.leafSelected → s.tmeReady → s.cpu.linearNumber % 256 ≠ 0 →
    exec barePconfig s = .fault (.generalProtection (if s.cpu.mode = .real then none else some 0))

/-- R57, R58, R114: past the segment limit in protected and compatibility mode, not canonical in 64-bit mode, or refused by
`SegCheck`: `#GP`, and this before any page fault. -/
def Obligations.OutsideSegmentOrNonCanonicalRaisesGp : Prop :=
  ∀ s : State, s.leafSelected → s.tmeReady → ¬ s.operandInside →
    exec barePconfig s = .fault (.generalProtection (if s.cpu.mode = .real then none else some 0))

/-- R59, R60, R114, R151: a page fault of the load is `#PF` with the code `Translate` answers and an address inside the
structure, whatever the structure holds; in real-address mode there is none. -/
def Obligations.LoadPageFaults : Prop :=
  ∀ (s : State), s.leafSelected → s.tmeReady → s.operandAddressable →
    (s.cpu.mode ≠ .real → ∀ code byte, pageAnswer s.cpu.paging (s.cpu.linearNumber / 4096) = .pageFault code byte →
      ∃ address : Word64, exec barePconfig s = .fault (.pageFault code address) ∧
        s.cpu.linearNumber ≤ address.toNat ∧ address.toNat ≤ s.cpu.linearNumber + 191) ∧
    (s.cpu.mode = .real → ∀ code address, exec barePconfig s ≠ .fault (.pageFault code address))

/-- R62: a structure outside ordinary memory is refused. -/
def Obligations.DeviceOperandRefused : Prop :=
  ∀ (s : State) (a : Nat), s.leafSelected → s.tmeReady → s.operandAddressable →
    translateAddress s.cpu (BitVec.ofNat 64 s.cpu.linearNumber) = .ok a →
    (∃ r ∈ s.config.deviceRanges, r.1 ≤ a + 191 ∧ a ≤ r.2) → exec barePconfig s = .refused .notOrdinaryMemory

/-- R116: a non-zero RSVD, which is the byte at offset 5, raises `#GP`, for every command, KeyID and algorithm; bytes 6 to 63
are not reserved: where RSVD is 0 and every other requirement is met, PCONFIG completes whatever they hold.
Derived: the second clause from R174; log entries 17 (linear address), 18 (byte order), 19 (alignment test). -/
def Obligations.ReservedBitsRaiseGp : Prop :=
  ∀ (s : State) (a : Nat), s.loadsAt a →
    (s.structNumber a 5 ≠ 0 →
      exec barePconfig s = .fault (.generalProtection (if s.cpu.mode = .real then none else some 0))) ∧
    (∀ k c i, s.contentAt a k c i → ∃ t, exec barePconfig s = .next t)

/-- R117: a COMMAND above 3 raises `#GP`; 0 to 3 pass the check, so that with every other requirement met PCONFIG completes.
Derived: the second clause from R174; log entries 17 (linear address), 18 (byte order), 19 (alignment test). -/
def Obligations.CommandCheck : Prop :=
  (∀ (s : State) (a : Nat), s.loadsAt a → 3 < (commandField (readBytes s.mem a 192)).toNat →
    exec barePconfig s = .fault (.generalProtection (if s.cpu.mode = .real then none else some 0))) ∧
  (∀ (s : State) (a k c : Nat) (i : Fin 16), s.requirements a k c i → ∃ t, exec barePconfig s = .next t)

/-- R118: KeyID 0, a KeyID above `2^MK_TME_KEYID_BITS - 1` and one above MK_TME_MAX_KEYS raise `#GP`, for every command;
the KeyIDs accepted are `1 .. min(2^MK_TME_KEYID_BITS - 1, MK_TME_MAX_KEYS)`: an execution that completes has one of them,
and one of them, with every other requirement met, completes.
Derived: the last clause from R174; log entries 17 (linear address), 18 (byte order), 19 (alignment test). -/
def Obligations.KeyIdCheck : Prop :=
  ∀ (s : State) (a : Nat), s.loadsAt a →
    ((keyIdField (readBytes s.mem a 192)).toNat = 0 ∨
        2 ^ s.cpu.keyIdBitsNumber - 1 < (keyIdField (readBytes s.mem a 192)).toNat ∨
        s.config.tmeCapability.toNat / 2 ^ 36 % 2 ^ 15 < (keyIdField (readBytes s.mem a 192)).toNat →
      exec barePconfig s = .fault (.generalProtection (if s.cpu.mode = .real then none else some 0))) ∧
    (∀ t, exec barePconfig s = .next t →
      1 ≤ (keyIdField (readBytes s.mem a 192)).toNat ∧
      (keyIdField (readBytes s.mem a 192)).toNat ≤
        min (2 ^ s.cpu.keyIdBitsNumber - 1) (s.config.tmeCapability.toNat / 2 ^ 36 % 2 ^ 15)) ∧
    (∀ k c i, s.contentAt a k c i → ∃ t, exec barePconfig s = .next t)

/-- R119: an ENC_ALG that is not one single bit, or whose bit is not activated, raises `#GP`, for every command; one
activated bit, with every other requirement met, passes, and its index is the algorithm of the entry that command 0 writes.
Derived: the last two clauses from R174 and R123; log entries 17 (linear address), 18 (byte order), 19 (alignment test). -/
def Obligations.AlgorithmCheck : Prop :=
  ∀ (s : State) (a : Nat), s.loadsAt a →
    ((¬ ∃ i : Fin 16, algField (readBytes s.mem a 192) = BitVec.twoPow 16 i.val) ∨
        algField (readBytes s.mem a 192) &&& s.cpu.tmeActivate.extractLsb' 48 16 = 0 →
      exec barePconfig s = .fault (.generalProtection (if s.cpu.mode = .real then none else some 0))) ∧
    (∀ k c i, s.contentAt a k c i → ∃ t, exec barePconfig s = .next t) ∧
    (∀ k i, s.contentAt a k 0 i → s.granted → ∃ t dataKey tweakKey, exec barePconfig s = .next t ∧
      keyEntry t.keyTable k = .encrypt i dataKey tweakKey)

/-- R140, R146, R150, R160: PCONFIG raises only `#UD`, `#GP` with error code 0 (none in real-address mode) and, in
protected, compatibility and 64-bit mode, `#PF`. -/
def Obligations.OnlyThreeExceptions : Prop :=
  ∀ (i : Instr) (s : State) (f : Fault), exec i s = .fault f →
    f = .invalidOpcode ∨ f = .generalProtection (if s.cpu.mode = .real then none else some 0) ∨
    (∃ code address, f = .pageFault code address ∧
      (s.cpu.mode = .protected32 ∨ s.cpu.mode = .compat ∨ s.cpu.mode = .long64))

/-! ## Where PCONFIG completes -/

/-- Command 0 (R123, R129) completes: the entry holds the algorithm and the first KeyBytes bytes of both key fields. -/
def Obligations.SetKeyDirectCompletes : Prop :=
  ∀ (s : State) (a k : Nat) (i : Fin 16), s.requirements a k 0 i → s.granted →
    ∃ t, exec barePconfig s = .next t ∧ s.completedAs t 0 ∧
      s.keyUpdated t k
        (.encrypt i (readBytes s.mem (a + 64) (keyBytes s.config i)) (readBytes s.mem (a + 128) (keyBytes s.config i)))

/-- Command 1 (R124, R129) completes: each byte of the two keys is the random byte XOR the byte of the key field. -/
def Obligations.SetKeyRandomCompletes : Prop :=
  ∀ (s : State) (a k : Nat) (i : Fin 16), s.requirements a k 1 i → s.granted →
    s.answer.entropyDataOk = true → s.answer.entropyTweakOk = true →
    ∃ t dataKey tweakKey, exec barePconfig s = .next t ∧ s.completedAs t 0 ∧
      s.keyUpdated t k (.encrypt i dataKey tweakKey) ∧
      dataKey.length = keyBytes s.config i ∧ tweakKey.length = keyBytes s.config i ∧
      ∀ j < keyBytes s.config i,
        dataKey.getD j 0 = s.answer.rndData.toList.getD j 0 ^^^ readByte s.mem (a + 64 + j) ∧
        tweakKey.getD j 0 = s.answer.rndTweak.toList.getD j 0 ^^^ readByte s.mem (a + 128 + j)

/-- Command 2 (R126) completes: the entry becomes `TmeDefault`, whatever the entropy and the key fields. -/
def Obligations.ClearKeyCompletes : Prop :=
  ∀ (s : State) (a k : Nat) (i : Fin 16), s.requirements a k 2 i → s.granted →
    ∃ t, exec barePconfig s = .next t ∧ s.completedAs t 0 ∧ s.keyUpdated t k .tmeDefault

/-- Command 3 (R127) completes: the entry becomes `NoEncrypt`. -/
def Obligations.NoEncryptCompletes : Prop :=
  ∀ (s : State) (a k : Nat) (i : Fin 16), s.requirements a k 3 i → s.granted →
    ∃ t, exec barePconfig s = .next t ∧ s.completedAs t 0 ∧ s.keyUpdated t k .noEncrypt

/-- R122: where the lock is not acquired every command reports DEVICE_BUSY, 5, and the key table is not updated, whatever
the random-number generator would answer. -/
def Obligations.DeviceBusyReported : Prop :=
  ∀ (s : State) (a k c : Nat) (i : Fin 16), s.requirements a k c i → s.answer.lockOk = false →
    ∃ t, exec barePconfig s = .next t ∧ s.completedAs t 5 ∧ t.keyTable = s.keyTable

/-- R125: command 1 with insufficient entropy, for either key, reports ENTROPY_ERROR, 2, and the key table is not updated. -/
def Obligations.EntropyErrorReported : Prop :=
  ∀ (s : State) (a k : Nat) (i : Fin 16), s.requirements a k 1 i → s.granted →
    (s.answer.entropyDataOk = false ∨ s.answer.entropyTweakOk = false) →
    ∃ t, exec barePconfig s = .next t ∧ s.completedAs t 2 ∧ t.keyTable = s.keyTable

/-- R104: a configured platform-specific reason is reported for every command, and the key table is not updated. -/
def Obligations.PlatformFailureReported : Prop :=
  ∀ (s : State) (a k c : Nat) (i : Fin 16) (reason : Word32), s.requirements a k c i → s.answer.lockOk = true →
    s.answer.platformFailure = some reason → reason ≠ 0 → reason ≠ 2 → reason ≠ 5 →
    reason ∈ s.config.extraFailureReasons →
    ∃ t, exec barePconfig s = .next t ∧ s.completedAs t reason ∧ t.keyTable = s.keyTable

/-- R103, R125, R122, R104: each failure reason has its one cause: 2 only from command 1 with insufficient entropy, whatever
reasons the platform is configured with; 5 only from a lock that was not acquired; any other from the platform. -/
def Obligations.FailureReasonsHaveOneCause : Prop :=
  ∀ (s t : State) (a k c : Nat) (i : Fin 16), s.requirements a k c i → exec barePconfig s = .next t →
    (t.cpu.rax.toNat % 2 ^ 32 = 2 →
      c = 1 ∧ s.answer.lockOk = true ∧ (s.answer.entropyDataOk = false ∨ s.answer.entropyTweakOk = false)) ∧
    (t.cpu.rax.toNat % 2 ^ 32 = 5 ↔ s.answer.lockOk = false) ∧
    (∀ r : Word32, t.cpu.rax.toNat % 2 ^ 32 = r.toNat → r ≠ 0 → r ≠ 2 → r ≠ 5 →
      s.answer.platformFailure = some r ∧ r ∈ s.config.extraFailureReasons)

/-- R174: an execution completes, with success or a reported failure, exactly where the requirements of rows 1 to 13
hold, each stated over the registers' and the structure's bits. -/
def Obligations.CompletesExactlyWhereRequirementsHold : Prop :=
  ∀ s : State, (∃ t, exec barePconfig s = .next t) ↔ ∃ a k c i, s.requirements a k c i

/-- The frame of every form (R97 to R101, R103, R104): an execution that completes leaves a result that is 0, 2, 5 or a
configured reason; changes RAX, the six flags, the instruction pointer and the platform's queue as `completedAs` says, and no
other register, no byte of memory or program text, no other processor; and no key-table entry but, on success, the one of the
structure's KeyID. -/
def Obligations.CompletionFrame : Prop :=
  ∀ (i : Instr) (s t : State), exec i s = .next t →
    ∃ result : Word32, s.completedAs t result ∧
      (result = 0 ∨ result = 2 ∨ result = 5 ∨ result ∈ s.config.extraFailureReasons) ∧
      (result ≠ 0 → t.keyTable = s.keyTable) ∧
      ∀ a, s.operandAt a → ∀ j, j ≠ s.structNumber a 0 + 256 * s.structNumber a 1 →
        keyEntry t.keyTable j = keyEntry s.keyTable j

/-- R177: after a reported failure EAX is no leaf: executing PCONFIG again without loading EAX raises `#GP`. -/
def Obligations.RetryWithoutReloadRaisesGp : Prop :=
  ∀ (i : Instr) (s t : State), exec i s = .next t → t.cpu.flags.zf = true → t.meaningful →
    exec barePconfig t = .fault (.generalProtection (if t.cpu.mode = .real then none else some 0))

/-! ## What PCONFIG does not depend on -/

/-- R39: no register, flag, memory byte or outcome depends on the key table. -/
def Obligations.KeyTableIsHidden : Prop :=
  ∀ (i : Instr) (s : State) (table : List (Nat × KeyEntry)),
    mapNext (fun t => { t with keyTable := [] }) (exec i { s with keyTable := table }) =
      mapNext (fun t => { t with keyTable := [] }) (exec i s)

/-- R124: the random keys influence only the hidden key table. -/
def Obligations.RandomKeysReachOnlyTheKeyTable : Prop :=
  ∀ (i : Instr) (s : State) (x y : PlatformAnswer) (rest : List PlatformAnswer),
    x.lockOk = y.lockOk → x.entropyDataOk = y.entropyDataOk → x.entropyTweakOk = y.entropyTweakOk →
    x.platformFailure = y.platformFailure →
    mapNext (fun t => { t with keyTable := [] }) (exec i { s with answers := x :: rest }) =
      mapNext (fun t => { t with keyTable := [] }) (exec i { s with answers := y :: rest })

/-- R26, R27: PCONFIG reads no flag: the six flags before it change nothing, and the other RFLAGS bits pass through. -/
def Obligations.FlagsAreNotRead : Prop :=
  ∀ (i : Instr) (s : State) (f : Flags) (w : Word64),
    exec i { s with cpu := { s.cpu with flags := f, otherFlags := w } } =
      mapNext (fun t => { t with cpu := { t.cpu with otherFlags := w } }) (exec i s)

/-- R29, R76: CS.D does not affect operand size or address size: the outcome is the same for both its values. -/
def Obligations.CodeSegmentSizeBitIsNotRead : Prop :=
  ∀ (i : Instr) (s : State) (d : Bool),
    exec i { s with cpu := { s.cpu with csD := d } } =
      mapNext (fun t => { t with cpu := { t.cpu with csD := d } }) (exec i s)

/-- R22, R51: outside 64-bit mode bits 63:32 of RBX take no part. -/
def Obligations.UpperHalfOfRbxIgnoredOutside64BitMode : Prop :=
  ∀ (i : Instr) (s : State) (r : Word64), s.cpu.mode ≠ .long64 → r.toNat % 2 ^ 32 = s.cpu.rbx.toNat % 2 ^ 32 →
    exec i { s with cpu := { s.cpu with rbx := r } } =
      mapNext (fun t => { t with cpu := { t.cpu with rbx := r } }) (exec i s)

/-- R129, R130: bytes 6 to 63 of the structure, and the bytes of the key fields beyond KeyBytes, have no effect. -/
def Obligations.IgnoredBytesHaveNoEffect : Prop :=
  ∀ (s : State) (m : Memory) (a k c : Nat) (i : Fin 16), s.requirements a k c i →
    (∀ o, o < 6 ∨ (64 ≤ o ∧ o < 64 + keyBytes s.config i) ∨ (128 ≤ o ∧ o < 128 + keyBytes s.config i) →
      readByte m (a + o) = readByte s.mem (a + o)) →
    exec barePconfig { s with mem := m } = mapNext (fun t => { t with mem := m }) (exec barePconfig s)

/-! ## Invariants -/

/-- Tier 3: every step keeps a state well formed: modes and CPL that exist, 32-bit instruction pointers outside 64-bit mode,
a key table in canonical form whose entries are programmable KeyIDs with keys of their algorithm's length, memory in
canonical form. -/
def Obligations.StepKeepsLegal : Prop :=
  ∀ s t : State, s.legal → step s = .next t → t.legal

/-- The state after reset is well formed (the values are the model's, log entries 1 to 5). -/
def Obligations.ResetIsLegal : Prop := State.reset.legal

/-- R43, R170: after reset every KeyID follows TME, and no key programmed before remains. -/
def Obligations.ResetKeyTableFollowsTme : Prop := ∀ k, keyEntry State.reset.keyTable k = .tmeDefault

/-- R38: KeyID 0 follows TME in every well-formed state, and after every step from one. -/
def Obligations.KeyIdZeroFollowsTme : Prop :=
  ∀ s : State, s.legal →
    keyEntry s.keyTable 0 = .tmeDefault ∧ ∀ t, step s = .next t → keyEntry t.keyTable 0 = .tmeDefault

/-- R62, R67, R45: however long a run is, memory, program text and the configuration are as they were. -/
def Obligations.RunWritesNoMemory : Prop :=
  ∀ (n : Nat) (s t : State), Host.Core.run Sys2Proof.core n s = .next t →
    t.mem = s.mem ∧ t.text = s.text ∧ t.config = s.config

/-! ## Tables -/

/-- `KeyTable[k] <- e` (R8): the entry reads back, every other entry is as before, and the canonical form is kept. -/
def Obligations.KeyTableReadAfterWrite : Prop :=
  ∀ (s : State) (k j : Nat) (e : KeyEntry),
    keyEntry (s.setKeyEntry k e).keyTable j = (if j = k then e else keyEntry s.keyTable j) ∧
    (tableWf .tmeDefault s.keyTable → tableWf .tmeDefault (s.setKeyEntry k e).keyTable)

/-- `MemRead` and `MemWrite` (R8): a byte written reads back, every other byte reads as before, the canonical form is kept,
and two memories in canonical form that read alike are equal. -/
def Obligations.MemoryReadAfterWrite : Prop :=
  (∀ (m : Memory) (a b : Nat) (v : Byte),
    readByte (writeByte m a v) b = (if b = a then v else readByte m b) ∧ (m.wf → (writeByte m a v).wf)) ∧
  (∀ m n : Memory, m.wf → n.wf → (∀ a, readByte m a = readByte n a) → m = n)
end

