-- ==== Sys2Proof/Laws/Decode.lean ====
section
/-! SUPPORT. What the decoder's parts do: prefix bytes, prefix runs, the opcode. -/

namespace Sys2Proof

/-- A prefix the mode has is read back from its byte. -/
theorem prefixOfByte_prefixByte (long64 : Bool) (p : Prefix) (h : prefixOk long64 p = true) :
    prefixOfByte long64 (prefixByte p) = some p := by
  cases p with
  | segment r => cases long64 <;> cases r <;> decide
  | rex w =>
    have hl : long64 = true := h
    subst hl
    revert w
    decide
  | _ => cases long64 <;> decide

/-- A byte is its two halves. -/
theorem byte_of_nibbles (b : Byte) : b.extractLsb' 4 4 ++ b.extractLsb' 0 4 = b := by
  refine BitVec.eq_of_getLsbD_eq fun i hi => ?_
  rw [BitVec.getLsbD_append, BitVec.getLsbD_extractLsb', BitVec.getLsbD_extractLsb']
  by_cases h : i < 4
  · simp only [h, decide_true, Bool.true_and, if_true, Nat.zero_add]
  · have h4 : i - 4 < 4 := by omega
    have : 4 + (i - 4) = i := by omega
    simp only [h, h4, decide_true, decide_false, Bool.true_and, this]
    simp

/-- A byte read as a prefix is that prefix's byte, and the mode has the prefix. -/
theorem prefixByte_of_prefixOfByte (long64 : Bool) (b : Byte) (p : Prefix) (h : prefixOfByte long64 b = some p) :
    prefixByte p = b ∧ prefixOk long64 p = true := by
  unfold prefixOfByte at h
  iterate 11
    rw [ite_eq_iff] at h
    rcases h with ⟨hb, h⟩ | ⟨-, h⟩
    · subst hb
      cases h
      exact ⟨rfl, rfl⟩
  rw [ite_eq_iff] at h
  rcases h with ⟨hb, h⟩ | ⟨-, h⟩
  · cases h
    simp only [Bool.and_eq_true, beq_iff_eq] at hb
    refine ⟨?_, hb.1⟩
    show (4 : BitVec 4) ++ b.extractLsb' 0 4 = b
    rw [← hb.2]
    exact byte_of_nibbles b
  · cases h

/-- No prefix byte begins an opcode: the three opcode bytes are not prefixes. -/
theorem prefixOfByte_opcode (long64 : Bool) (vex : Option VexForm) (rest : List Byte) :
    ∃ b bs, encodeOpcode vex ++ rest = b :: bs ∧ prefixOfByte long64 b = none := by
  cases vex with
  | none => exact ⟨_, _, rfl, by cases long64 <;> decide⟩
  | some v => cases v <;> exact ⟨_, _, rfl, by cases long64 <;> decide⟩

/-- A run of prefixes is read whole, up to a byte that is no prefix. -/
theorem decodePrefixes_append (long64 : Bool) (ps : List Prefix) (b : Byte) (bs : List Byte)
    (hps : ps.all (prefixOk long64) = true) (hb : prefixOfByte long64 b = none) :
    decodePrefixes long64 (ps.map prefixByte ++ b :: bs) = (ps, b :: bs) := by
  induction ps with
  | nil => simp [decodePrefixes, hb]
  | cons p ps ih =>
    simp only [List.all_cons, Bool.and_eq_true] at hps
    simp [decodePrefixes, prefixOfByte_prefixByte long64 p hps.1, ih hps.2]

/-- The prefixes read, with the bytes left, are the bytes given. -/
theorem decodePrefixes_sound (long64 : Bool) (bytes : List Byte) :
    (decodePrefixes long64 bytes).1.map prefixByte ++ (decodePrefixes long64 bytes).2 = bytes ∧
      (decodePrefixes long64 bytes).1.all (prefixOk long64) = true := by
  induction bytes with
  | nil => simp [decodePrefixes]
  | cons b bs ih =>
    simp only [decodePrefixes]
    split
    · rename_i p hp
      obtain ⟨h1, h2⟩ := prefixByte_of_prefixOfByte long64 b p hp
      simpa [h1, h2] using ih
    · simp

/-- The opcode is read back, in the mode that has its VEX form. -/
theorem decodeOpcode_encodeOpcode (long64 : Bool) (vex : Option VexForm) (rest : List Byte)
    (h : vex.all (vexOk long64) = true) : decodeOpcode long64 (encodeOpcode vex ++ rest) = some (vex, rest) := by
  cases vex with
  | none => simp [encodeOpcode, decodeOpcode]
  | some v =>
    have hv : vexOk long64 v = true := h
    cases v with
    | two p => simp [encodeOpcode, decodeOpcode, hv]
    | three p q => simp [encodeOpcode, decodeOpcode, hv]

/-- An opcode read is the bytes given, and the mode has its VEX form. -/
theorem decodeOpcode_sound (long64 : Bool) (bytes rest : List Byte) (vex : Option VexForm)
    (h : decodeOpcode long64 bytes = some (vex, rest)) :
    bytes = encodeOpcode vex ++ rest ∧ vex.all (vexOk long64) = true := by
  unfold decodeOpcode at h
  split at h
  · rename_i b0 b1 b2 r
    split at h
    · rename_i hb
      obtain ⟨rfl, rfl, rfl⟩ := hb
      cases h
      exact ⟨rfl, rfl⟩
    · split at h
      · cases h
      · rename_i b3 r3
        split at h
        · rename_i hb
          obtain ⟨rfl, rfl, rfl, hv⟩ := hb
          cases h
          exact ⟨rfl, hv⟩
        · split at h
          · cases h
          · rename_i b4 r4
            split at h
            · rename_i hb
              obtain ⟨rfl, rfl, rfl, hv⟩ := hb
              cases h
              exact ⟨rfl, hv⟩
            · cases h
  · cases h

end Sys2Proof
end

