-- ==== Sys2Proof/Laws/Table.lean ====
section
/-! SUPPORT. Tables, memory and the key table: what a write does to every read, and that the canonical form is kept. -/

namespace Sys2Proof.Machine

variable {α : Type}

/-- A value put into a table is found at its key, and every other key is found as before. -/
theorem tableFind_put (t : List (Nat × α)) (k j : Nat) (v : α) :
    tableFind (tablePut t k v) j = if j = k then some v else tableFind t j := by
  induction t with
  | nil => simp [tablePut, tableFind, eq_comm]
  | cons e t ih =>
    obtain ⟨a, u⟩ := e
    simp only [tablePut]
    split
    · by_cases h : j = k
      · simp [tableFind, h]
      · simp [tableFind, h, Ne.symm h]
    · split
      · rename_i hka
        subst hka
        by_cases h : j = a
        · simp [tableFind, h]
        · simp [tableFind, h, Ne.symm h]
      · rename_i hka
        by_cases h : a = j
        · subst h; simp [tableFind, hka]
        · simp [tableFind, h, ih]

/-- An erased key is not found, and every other key is found as before. -/
theorem tableFind_erase (t : List (Nat × α)) (k j : Nat) :
    tableFind (tableErase t k) j = if j = k then none else tableFind t j := by
  induction t with
  | nil => simp [tableErase, tableFind]
  | cons e t ih =>
    obtain ⟨a, u⟩ := e
    unfold tableErase at ih ⊢
    by_cases h : a = k
    · subst h
      simp only [List.filter, bne_self_eq_false, ih, tableFind]
      by_cases hj : j = a
      · simp [hj]
      · simp [hj, Ne.symm hj]
    · have hb : (a != k) = true := by simp [h]
      simp only [List.filter, hb, tableFind, ih]
      by_cases hj : a = j
      · subst hj; simp [h]
      · simp [hj]

/-- The read of a table after a write, where an unlisted key reads `d`. -/
theorem tableSet_read [DecidableEq α] (d : α) (t : List (Nat × α)) (k j : Nat) (v : α) :
    (tableFind (tableSet d t k v) j).getD d = if j = k then v else (tableFind t j).getD d := by
  unfold tableSet
  split
  · rename_i h
    rw [tableFind_erase]
    by_cases hj : j = k <;> simp [hj, h]
  · rw [tableFind_put]
    by_cases hj : j = k <;> simp [hj]

/-- Every entry after a put is the new one or an old one. -/
theorem mem_tablePut (t : List (Nat × α)) (k : Nat) (v : α) (e : Nat × α) (h : e ∈ tablePut t k v) :
    e = (k, v) ∨ e ∈ t := by
  induction t with
  | nil => simpa [tablePut] using h
  | cons x t ih =>
    obtain ⟨a, u⟩ := x
    simp only [tablePut] at h
    split at h
    · simpa using h
    · split at h
      · rcases List.mem_cons.mp h with h | h
        · exact Or.inl h
        · exact Or.inr (List.mem_cons_of_mem _ h)
      · rcases List.mem_cons.mp h with h | h
        · exact Or.inr (h ▸ List.mem_cons_self)
        · exact (ih h).imp id (List.mem_cons_of_mem _)

/-- A put keeps the keys rising. -/
theorem tableSorted_put (t : List (Nat × α)) (k : Nat) (v : α) (h : tableSorted t) : tableSorted (tablePut t k v) := by
  induction t with
  | nil => simp [tablePut, tableSorted]
  | cons x t ih =>
    obtain ⟨a, u⟩ := x
    obtain ⟨hx, ht⟩ := List.pairwise_cons.mp h
    simp only [tablePut]
    split
    · rename_i hka
      refine List.pairwise_cons.mpr ⟨fun y hy => ?_, h⟩
      rcases List.mem_cons.mp hy with rfl | hy
      · exact hka
      · exact Nat.lt_trans hka (hx y hy)
    · split
      · rename_i hak
        subst hak
        exact List.pairwise_cons.mpr ⟨hx, ht⟩
      · rename_i hka hak
        refine List.pairwise_cons.mpr ⟨fun y hy => ?_, ih ht⟩
        rcases mem_tablePut t k v y hy with rfl | hy
        · show a < k
          omega
        · exact hx y hy

/-- An erasure keeps the keys rising. -/
theorem tableSorted_erase (t : List (Nat × α)) (k : Nat) (h : tableSorted t) : tableSorted (tableErase t k) :=
  List.Pairwise.filter _ h

/-- Every entry after a write is the new one or an old one. -/
theorem mem_tableSet [DecidableEq α] (d : α) (t : List (Nat × α)) (k : Nat) (v : α) (e : Nat × α)
    (h : e ∈ tableSet d t k v) : e = (k, v) ∨ e ∈ t := by
  unfold tableSet at h
  split at h
  · exact Or.inr (List.mem_filter.mp h).1
  · exact mem_tablePut t k v e h

/-- A write keeps the canonical form. -/
theorem tableWf_set [DecidableEq α] (d : α) (t : List (Nat × α)) (k : Nat) (v : α) (h : tableWf d t) :
    tableWf d (tableSet d t k v) := by
  refine ⟨?_, fun e he => ?_⟩
  · unfold tableSet
    split
    · exact tableSorted_erase t k h.1
    · exact tableSorted_put t k v h.1
  · by_cases hv : v = d
    · simp only [tableSet, hv, if_pos] at he
      exact h.2 e (List.mem_filter.mp he).1
    · rcases mem_tableSet d t k v e he with rfl | he
      · exact hv
      · exact h.2 e he

/-- A listed key of a table with rising keys is found with its value. -/
theorem tableFind_of_mem (t : List (Nat × α)) (h : tableSorted t) (e : Nat × α) (he : e ∈ t) :
    tableFind t e.1 = some e.2 := by
  induction t with
  | nil => cases he
  | cons x t ih =>
    obtain ⟨a, u⟩ := x
    obtain ⟨hx, ht⟩ := List.pairwise_cons.mp h
    rcases List.mem_cons.mp he with rfl | he'
    · simp [tableFind]
    · have : a ≠ e.1 := Nat.ne_of_lt (hx e he')
      simp [tableFind, this, ih ht he']

/-- A value found is listed. -/
theorem mem_of_tableFind (t : List (Nat × α)) (k : Nat) (v : α) (h : tableFind t k = some v) : (k, v) ∈ t := by
  induction t with
  | nil => simp [tableFind] at h
  | cons x t ih =>
    obtain ⟨a, u⟩ := x
    simp only [tableFind] at h
    split at h
    · rename_i hak
      cases h
      exact hak ▸ List.mem_cons_self
    · exact List.mem_cons_of_mem _ (ih h)

/-! ## Memory -/

/-- Every memory operation keeps the canonical form: a byte written. -/
theorem Memory.wf_writeByte (m : Memory) (a : Nat) (v : Byte) (h : m.wf) : (writeByte m a v).wf :=
  tableWf_set unwrittenByte m a v h

/-- Every memory operation keeps the canonical form: a byte string written. -/
theorem Memory.wf_writeBytes (bs : List Byte) (m : Memory) (a : Nat) (h : m.wf) : (writeBytes m a bs).wf := by
  induction bs generalizing m a with
  | nil => exact h
  | cons b bs ih => exact ih _ _ (Memory.wf_writeByte m a b h)

/-- Instruction memory keeps its keys rising. -/
theorem tableSorted_storeText (bs : List Byte) (t : Memory) (a : Nat) (h : tableSorted t) :
    tableSorted (storeText t a bs) := by
  induction bs generalizing t a with
  | nil => exact h
  | cons b bs ih => exact ih _ _ (tableSorted_put t a b h)

/-- The memory of the state after reset has the canonical form. -/
theorem State.reset_mem_wf : State.reset.mem.wf := by decide

/-- The number of bytes a read answers. -/
@[simp] theorem readBytes_length (m : Memory) (a n : Nat) : (readBytes m a n).length = n := by simp [readBytes]

/-- A byte of a read. -/
theorem readBytes_getD (m : Memory) (a n i : Nat) (d : Byte) (h : i < n) :
    (readBytes m a n).getD i d = readByte m (a + i) := by
  simp [readBytes, List.getD, h]

/-- A part of a read is a read. -/
theorem readBytes_drop_take (m : Memory) (a n o k : Nat) (h : o + k ≤ n) :
    ((readBytes m a n).drop o).take k = readBytes m (a + o) k := by
  apply List.ext_getElem
  · simp; omega
  · intro i h1 h2
    simp [readBytes, Nat.add_assoc]

end Sys2Proof.Machine
end

