-- ==== Sys2Proof/Laws/Numbers.lean ====
section
/-! SUPPORT. The bits the meaning tests, as the numbers the statements speak of. -/

namespace Sys2Proof.Machine

/-! ## Registers and addresses -/

theorem eax_eq_zero (p : Processor) : eax p = 0 ↔ p.rax.toNat % 2 ^ 32 = 0 := by
  rw [eax, ← BitVec.toNat_inj]
  simp

theorem wide_iff (m : Mode) : wide m = true ↔ m = .long64 := by cases m <;> decide

theorem structOffset_toNat (p : Processor) : (structOffset p).toNat = p.offsetNumber := by
  unfold structOffset Processor.offsetNumber
  by_cases h : p.mode = .long64
  · simp [h, wide]
  · have hw : wide p.mode = false := by simpa [wide] using h
    simp only [hw, h, if_false, Bool.false_eq_true, ebx]
    simp only [BitVec.toNat_setWidth, BitVec.extractLsb'_toNat, Nat.shiftRight_zero]
    omega

theorem structAddress_toNat (p : Processor) : (structAddress p).toNat = p.linearNumber := by
  unfold structAddress linearAddress Processor.linearNumber
  by_cases h : p.mode = .long64
  · simp [h, wide, structOffset_toNat]
  · have hw : wide p.mode = false := by simpa [wide] using h
    simp only [hw, h, if_false, Bool.false_eq_true, BitVec.toNat_setWidth, BitVec.toNat_add, structOffset_toNat]
    omega

theorem structAddress_eq (p : Processor) : structAddress p = BitVec.ofNat 64 p.linearNumber := by
  rw [← structAddress_toNat, BitVec.ofNat_toNat, BitVec.setWidth_eq]

theorem linearNumber_lt (p : Processor) : p.linearNumber < 2 ^ 64 := by
  rw [← structAddress_toNat]
  exact (structAddress p).isLt

theorem aligned_iff (p : Processor) : aligned (structAddress p) = true ↔ p.linearNumber % 256 = 0 := by
  rw [aligned, beq_iff_eq, ← BitVec.toNat_inj]
  simp [structAddress_toNat]

theorem canonical_iff (n : Nat) (a : Word64) :
    canonical n a = true ↔ ∀ i : Fin 64, n ≤ i.val + 1 → a.toNat.testBit i.val = a.toNat.testBit 63 := by
  simp only [canonical, List.all_eq_true, List.mem_range, Bool.or_eq_true, decide_eq_true_eq, beq_iff_eq,
    BitVec.getLsbD]
  constructor
  · intro h i hi
    rcases h i.val i.isLt with h | h
    · omega
    · exact h
  · intro h i hi
    by_cases hn : i + 1 < n
    · exact Or.inl hn
    · exact Or.inr (h ⟨i, hi⟩ (by show n ≤ i + 1; omega))

theorem limitOk_iff (ds : Segment) (off : Word64) :
    limitOk ds off structLength = true ↔ ∀ l ∈ ds.limit.toList, off.toNat + 191 ≤ l.toNat := by
  unfold limitOk structLength
  cases ds.limit with
  | none => simp
  | some l =>
    simp only [decide_eq_true_eq, Option.toList_some, List.mem_singleton, forall_eq]
    omega

theorem segCheck_iff (c : Config) (p : Processor) :
    segCheck c p.mode p.ds (structOffset p) structLength = true ↔
      (p.mode = .protected32 ∨ p.mode = .compat → ∀ l ∈ p.ds.limit.toList, p.offsetNumber + 191 ≤ l.toNat) ∧
      (∀ f ∈ c.segFaults, f.mode = p.mode → f.ds = p.ds →
        p.offsetNumber + 191 < f.first ∨ f.last < p.offsetNumber) := by
  unfold segCheck
  rw [Bool.and_eq_true]
  refine and_congr ?_ ?_
  · rw [← structOffset_toNat, ← limitOk_iff]
    cases p.mode <;> simp
  · rw [List.all_eq_true]
    refine forall_congr' fun f => forall_congr' fun _ => ?_
    simp only [structLength, structOffset_toNat, Bool.not_eq_true', Bool.and_eq_false_iff, beq_eq_false_iff_ne,
      decide_eq_false_iff_not]
    constructor
    · rintro h h1 h2
      rcases h with ((h | h) | h) | h
      · exact absurd h1 h
      · exact absurd h2 h
      · left; omega
      · right; omega
    · intro h
      by_cases h1 : f.mode = p.mode
      · by_cases h2 : f.ds = p.ds
        · rcases h h1 h2 with h | h
          · exact Or.inl (Or.inr (by omega))
          · exact Or.inr (by omega)
        · exact Or.inl (Or.inl (Or.inr h2))
      · exact Or.inl (Or.inl (Or.inl h1))

theorem operandOk_iff (s : State) : operandOk s.config s.cpu = true ↔ s.operandInside := by
  unfold operandOk State.operandInside
  by_cases h : s.cpu.mode = .long64
  · have hw : wide s.cpu.mode = true := (wide_iff _).mpr h
    rw [if_pos hw, canonical_iff, structAddress_toNat]
    simp [h]
  · have hw : wide s.cpu.mode = false := by simpa [wide] using h
    rw [if_neg (by simp [hw]), segCheck_iff]
    simp [h]

theorem ordinary_iff (c : Config) (a : Nat) :
    ordinary c a structLength = true ↔ ∀ r ∈ c.deviceRanges, a + 191 < r.1 ∨ r.2 < a := by
  rw [ordinary, List.all_eq_true]
  refine forall_congr' fun r => forall_congr' fun _ => ?_
  rw [Bool.not_eq_true', Bool.and_eq_false_iff, decide_eq_false_iff_not, decide_eq_false_iff_not, structLength]
  omega

/-- The load answers exactly where rows 7 to 9 of R174 hold, and then the 192 bytes at that place. -/
theorem loadStructure_iff (s : State) (S : List Byte) :
    loadStructure s = .ok S ↔ ∃ a, s.operandAt a ∧ S = readBytes s.mem a 192 := by
  have hal := aligned_iff s.cpu
  have hin := operandOk_iff s
  constructor
  · intro h
    unfold loadStructure at h
    split at h
    · cases h
    · split at h
      · cases h
      · split at h
        · cases h
        · rename_i h1 h2 _ a ha
          split at h
          · cases h
          · rename_i h3
            cases h
            refine ⟨a, ⟨⟨hal.mp (by simpa using h1), hin.mp (by simpa using h2)⟩, ?_, ?_⟩, rfl⟩
            · rw [← structAddress_eq]; exact ha
            · exact (ordinary_iff _ _).mp (by simpa using h3)
  · rintro ⟨a, ⟨⟨h1, h2⟩, h3, h4⟩, rfl⟩
    rw [← structAddress_eq] at h3
    have h5 := (ordinary_iff _ _).mpr h4
    rw [loadStructure, if_neg (by simp [hal.mpr h1]), if_neg (by simp [hin.mpr h2]), h3]
    simp only [h5]
    rfl

/-! ## The MSRs -/

theorem keyIdBits_eq (p : Processor) : keyIdBits p.tmeActivate = p.keyIdBitsNumber := by
  simp [keyIdBits, Processor.keyIdBitsNumber, Nat.shiftRight_eq_div_pow]

theorem maxKeys_eq (cap : Word64) : maxKeys cap = cap.toNat / 2 ^ 36 % 2 ^ 15 := by
  simp [maxKeys, Nat.shiftRight_eq_div_pow]

theorem tmeActivated_iff (s : State) : tmeActivated s.cpu.tmeActivate = true ↔ s.tmeReady := by
  simp only [tmeActivated, tmeLocked, tmeEnabled, keyIdBits_eq, Bool.and_eq_true, bne_iff_ne, State.tmeReady, and_assoc]

theorem keyIdOk_iff (s : State) (k : Nat) :
    keyIdOk s.cpu.tmeActivate s.config.tmeCapability k = true ↔
      1 ≤ k ∧ k ≤ 2 ^ s.cpu.keyIdBitsNumber - 1 ∧ k ≤ s.config.tmeCapability.toNat / 2 ^ 36 % 2 ^ 15 := by
  simp only [keyIdOk, keyIdBits_eq, maxKeys_eq, Bool.and_eq_true, bne_iff_ne, decide_eq_true_eq, and_assoc,
    Nat.one_le_iff_ne_zero]

/-! ## The structure's fields -/

theorem structByte_readBytes (m : Memory) (a o : Nat) (h : o < 192) :
    structByte (readBytes m a 192) o = readByte m (a + o) := readBytes_getD m a 192 o 0 h

/-- A byte put above a word, as a number. -/
theorem append_toNat {n m : Nat} (x : BitVec n) (y : BitVec m) : (x ++ y).toNat = x.toNat * 2 ^ m + y.toNat := by
  rw [BitVec.toNat_append, ← Nat.shiftLeft_add_eq_or_of_lt y.isLt, Nat.shiftLeft_eq]

theorem le16_toNat (S : List Byte) (o : Nat) :
    (le16 S o).toNat = (structByte S o).toNat + 256 * (structByte S (o + 1)).toNat := by
  rw [le16, append_toNat]
  omega

theorem ctrlField_toNat (S : List Byte) :
    (ctrlField S).toNat = (structByte S 2).toNat + 256 * (structByte S 3).toNat +
      65536 * (structByte S 4).toNat + 16777216 * (structByte S 5).toNat := by
  rw [ctrlField, le32, append_toNat, le16_toNat, le16_toNat]
  simp only [Nat.reduceAdd]
  omega

theorem commandField_eq (S : List Byte) : commandField S = structByte S 2 := by
  rw [← BitVec.toNat_inj, commandField, BitVec.extractLsb'_toNat, ctrlField_toNat]
  have := (structByte S 2).isLt
  simp only [Nat.shiftRight_zero]
  omega

theorem reservedField_eq (S : List Byte) : reservedField S = structByte S 5 := by
  rw [← BitVec.toNat_inj, reservedField, BitVec.extractLsb'_toNat, ctrlField_toNat]
  have := (structByte S 2).isLt
  have := (structByte S 3).isLt
  have := (structByte S 4).isLt
  have := (structByte S 5).isLt
  simp only [Nat.shiftRight_eq_div_pow]
  omega

theorem algField_toNat (S : List Byte) :
    (algField S).toNat = (structByte S 3).toNat + 256 * (structByte S 4).toNat := by
  rw [algField, BitVec.extractLsb'_toNat, ctrlField_toNat]
  have := (structByte S 2).isLt
  have := (structByte S 3).isLt
  have := (structByte S 4).isLt
  have := (structByte S 5).isLt
  simp only [Nat.shiftRight_eq_div_pow]
  omega

theorem commandOf_iff (b : Byte) (c : Command) :
    commandOf b = some c ↔
      b.toNat = (match c with
        | .setKeyDirect => 0
        | .setKeyRandom => 1
        | .clearKey => 2
        | .noEncrypt => 3) := by
  have e : ∀ n : Fin 4, b = BitVec.ofNat 8 n.val ↔ b.toNat = n.val := by
    intro n
    rw [← BitVec.toNat_inj, BitVec.toNat_ofNat]
    have := n.isLt
    omega
  have e0 := e 0
  have e1 := e 1
  have e2 := e 2
  have e3 := e 3
  simp only [Fin.val_zero, Fin.val_one] at e0 e1
  simp only [commandOf, show (0 : Byte) = BitVec.ofNat 8 0 from rfl, show (1 : Byte) = BitVec.ofNat 8 1 from rfl,
    show (2 : Byte) = BitVec.ofNat 8 2 from rfl, show (3 : Byte) = BitVec.ofNat 8 3 from rfl, e0, e1,
    show (b = BitVec.ofNat 8 2 ↔ b.toNat = 2) from e2, show (b = BitVec.ofNat 8 3 ↔ b.toNat = 3) from e3]
  cases c <;> (repeat' split) <;> simp_all

theorem commandOf_none (b : Byte) : commandOf b = none ↔ 3 < b.toNat := by
  constructor
  · intro h
    by_contra hb
    have hc : ∃ c, commandOf b = some c := by
      rcases (show b.toNat = 0 ∨ b.toNat = 1 ∨ b.toNat = 2 ∨ b.toNat = 3 by omega) with hb | hb | hb | hb
      · exact ⟨.setKeyDirect, (commandOf_iff _ _).mpr hb⟩
      · exact ⟨.setKeyRandom, (commandOf_iff _ _).mpr hb⟩
      · exact ⟨.clearKey, (commandOf_iff _ _).mpr hb⟩
      · exact ⟨.noEncrypt, (commandOf_iff _ _).mpr hb⟩
    obtain ⟨c, hc⟩ := hc
    rw [h] at hc
    cases hc
  · intro h
    cases hc : commandOf b with
    | none => rfl
    | some c =>
      have := (commandOf_iff _ _).mp hc
      cases c <;> simp at this <;> omega

/-! ## ENC_ALG -/

/-- A value with exactly one bit among the first sixteen is that power of two. -/
theorem popcount_one (v : Word16) : popcount v = 1 ↔ ∃ i : Fin 16, v = BitVec.twoPow 16 i.val := by
  constructor
  · intro h
    rw [popcount, List.countP_eq_length_filter, List.length_eq_one_iff] at h
    obtain ⟨i, hi⟩ := h
    have key : ∀ j, j ∈ (List.range 16).filter (fun i => v.getLsbD i) ↔ j = i := by simp [hi]
    simp only [List.mem_filter, List.mem_range] at key
    have hi16 : i < 16 := ((key i).mpr rfl).1
    refine ⟨⟨i, hi16⟩, BitVec.eq_of_getLsbD_eq fun j hj => ?_⟩
    have hk := key j
    simp only [hj, true_and] at hk
    rw [BitVec.getLsbD_twoPow, Bool.eq_iff_iff, hk]
    simp [hi16, eq_comm]
  · rintro ⟨i, rfl⟩
    revert i
    decide

theorem eq_twoPow_iff (v : Word16) (i : Fin 16) : v = BitVec.twoPow 16 i.val ↔ v.toNat = 2 ^ i.val := by
  have : 2 ^ i.val < 2 ^ 16 := Nat.pow_lt_pow_right (by decide) i.isLt
  rw [← BitVec.toNat_inj, BitVec.toNat_twoPow, Nat.mod_eq_of_lt this]

theorem and_twoPow_eq_zero (w : Word16) (i : Fin 16) :
    BitVec.twoPow 16 i.val &&& w = 0 ↔ w.getLsbD i.val = false := by
  constructor
  · intro h
    have hb := congrArg (fun x : Word16 => x.getLsbD i.val) h
    simpa [BitVec.getLsbD_twoPow, i.isLt] using hb
  · intro h
    refine BitVec.eq_of_getLsbD_eq fun j hj => ?_
    rw [BitVec.getLsbD_and, BitVec.getLsbD_twoPow]
    by_cases hij : i.val = j
    · subst hij; rw [h, Bool.and_false]; exact (BitVec.getLsbD_zero).symm
    · simp [hij]

/-- The algorithm selected is the one whose power of two ENC_ALG is, where its bit is activated (R81, R119). -/
theorem selectedAlg_iff (activated encAlg : Word16) (i : Fin 16) :
    selectedAlg activated encAlg = some i ↔ encAlg.toNat = 2 ^ i.val ∧ activated.getLsbD i.val = true := by
  have find : ∀ j : Fin 16, (List.finRange 16).find? (fun k => (BitVec.twoPow 16 j.val).getLsbD k.val) = some j := by
    decide
  rw [← eq_twoPow_iff]
  unfold selectedAlg
  by_cases h1 : popcount encAlg = 1
  · obtain ⟨j, rfl⟩ := (popcount_one encAlg).mp h1
    have inj : BitVec.twoPow 16 j.val = BitVec.twoPow 16 i.val ↔ j = i := by
      revert i j
      decide
    rw [inj]
    by_cases h2 : BitVec.twoPow 16 j.val &&& activated = 0
    · have := (and_twoPow_eq_zero activated j).mp h2
      simp only [h1, h2, ne_eq, not_true_eq_false, false_or, if_true]
      constructor
      · intro h; cases h
      · rintro ⟨rfl, h⟩
        rw [this] at h
        cases h
    · have hb : activated.getLsbD j.val = true := by
        cases hb : activated.getLsbD j.val
        · exact absurd ((and_twoPow_eq_zero activated j).mpr hb) h2
        · rfl
      rw [if_neg (fun hor => hor.elim (fun hn => hn h1) h2), find j]
      constructor
      · intro h
        cases h
        exact ⟨rfl, hb⟩
      · rintro ⟨rfl, _⟩
        rfl
  · rw [if_pos (Or.inl h1)]
    constructor
    · intro h; cases h
    · rintro ⟨h, _⟩
      exact absurd ((popcount_one encAlg).mpr ⟨i, h⟩) h1

end Sys2Proof.Machine
end

