-- ==== Sys2Proof/Laws/State.lean ====
section
/-! SUPPORT. One lemma per field per update of the state, and what each shared operation leaves alone. -/

namespace Sys2Proof.Machine

/-! ## `setKeyEntry` -/

@[simp] theorem State.setKeyEntry_cpu (s : State) (k : Nat) (e : KeyEntry) : (s.setKeyEntry k e).cpu = s.cpu := rfl
@[simp] theorem State.setKeyEntry_others (s : State) (k : Nat) (e : KeyEntry) : (s.setKeyEntry k e).others = s.others := rfl
@[simp] theorem State.setKeyEntry_keyTable (s : State) (k : Nat) (e : KeyEntry) :
    (s.setKeyEntry k e).keyTable = tableSet .tmeDefault s.keyTable k e := rfl
@[simp] theorem State.setKeyEntry_mem (s : State) (k : Nat) (e : KeyEntry) : (s.setKeyEntry k e).mem = s.mem := rfl
@[simp] theorem State.setKeyEntry_text (s : State) (k : Nat) (e : KeyEntry) : (s.setKeyEntry k e).text = s.text := rfl
@[simp] theorem State.setKeyEntry_config (s : State) (k : Nat) (e : KeyEntry) : (s.setKeyEntry k e).config = s.config := rfl
@[simp] theorem State.setKeyEntry_answers (s : State) (k : Nat) (e : KeyEntry) : (s.setKeyEntry k e).answers = s.answers := rfl
@[simp] theorem State.setKeyEntry_draws (s : State) (k : Nat) (e : KeyEntry) : (s.setKeyEntry k e).draws = s.draws := rfl
@[simp] theorem State.setKeyEntry_schedule (s : State) (k : Nat) (e : KeyEntry) :
    (s.setKeyEntry k e).schedule = s.schedule := rfl
@[simp] theorem State.setKeyEntry_turns (s : State) (k : Nat) (e : KeyEntry) : (s.setKeyEntry k e).turns = s.turns := rfl

/-! ## `drawn` -/

@[simp] theorem State.drawn_cpu (s : State) : s.drawn.cpu = s.cpu := rfl
@[simp] theorem State.drawn_others (s : State) : s.drawn.others = s.others := rfl
@[simp] theorem State.drawn_keyTable (s : State) : s.drawn.keyTable = s.keyTable := rfl
@[simp] theorem State.drawn_mem (s : State) : s.drawn.mem = s.mem := rfl
@[simp] theorem State.drawn_text (s : State) : s.drawn.text = s.text := rfl
@[simp] theorem State.drawn_config (s : State) : s.drawn.config = s.config := rfl
@[simp] theorem State.drawn_answers (s : State) : s.drawn.answers = s.answers.tail := rfl
@[simp] theorem State.drawn_draws (s : State) : s.drawn.draws = s.draws + 1 := rfl
@[simp] theorem State.drawn_schedule (s : State) : s.drawn.schedule = s.schedule := rfl
@[simp] theorem State.drawn_turns (s : State) : s.drawn.turns = s.turns := rfl

/-! ## `complete` -/

@[simp] theorem State.complete_rax (s : State) (r : Word32) :
    (s.complete r).cpu.rax = resultRax s.cpu.mode (Config.freeRaxHigh s.draws) r := rfl
@[simp] theorem State.complete_rbx (s : State) (r : Word32) : (s.complete r).cpu.rbx = s.cpu.rbx := rfl
@[simp] theorem State.complete_rcx (s : State) (r : Word32) : (s.complete r).cpu.rcx = s.cpu.rcx := rfl
@[simp] theorem State.complete_rdx (s : State) (r : Word32) : (s.complete r).cpu.rdx = s.cpu.rdx := rfl
@[simp] theorem State.complete_pc (s : State) (r : Word32) : (s.complete r).cpu.pc = s.cpu.pc + 3 := rfl
@[simp] theorem State.complete_flags (s : State) (r : Word32) : (s.complete r).cpu.flags = completionFlags r := rfl
@[simp] theorem State.complete_otherFlags (s : State) (r : Word32) :
    (s.complete r).cpu.otherFlags = s.cpu.otherFlags := rfl
@[simp] theorem State.complete_mode (s : State) (r : Word32) : (s.complete r).cpu.mode = s.cpu.mode := rfl
@[simp] theorem State.complete_cpl (s : State) (r : Word32) : (s.complete r).cpu.cpl = s.cpu.cpl := rfl
@[simp] theorem State.complete_csD (s : State) (r : Word32) : (s.complete r).cpu.csD = s.cpu.csD := rfl
@[simp] theorem State.complete_ds (s : State) (r : Word32) : (s.complete r).cpu.ds = s.cpu.ds := rfl
@[simp] theorem State.complete_tmeActivate (s : State) (r : Word32) :
    (s.complete r).cpu.tmeActivate = s.cpu.tmeActivate := rfl
@[simp] theorem State.complete_paging (s : State) (r : Word32) : (s.complete r).cpu.paging = s.cpu.paging := rfl
@[simp] theorem State.complete_program (s : State) (r : Word32) : (s.complete r).cpu.program = s.cpu.program := rfl
@[simp] theorem State.complete_number (s : State) (r : Word32) : (s.complete r).cpu.number = s.cpu.number := rfl
@[simp] theorem State.complete_others (s : State) (r : Word32) : (s.complete r).others = s.others := rfl
@[simp] theorem State.complete_keyTable (s : State) (r : Word32) : (s.complete r).keyTable = s.keyTable := rfl
@[simp] theorem State.complete_mem (s : State) (r : Word32) : (s.complete r).mem = s.mem := rfl
@[simp] theorem State.complete_text (s : State) (r : Word32) : (s.complete r).text = s.text := rfl
@[simp] theorem State.complete_config (s : State) (r : Word32) : (s.complete r).config = s.config := rfl
@[simp] theorem State.complete_answers (s : State) (r : Word32) : (s.complete r).answers = s.answers := rfl
@[simp] theorem State.complete_draws (s : State) (r : Word32) : (s.complete r).draws = s.draws := rfl
@[simp] theorem State.complete_schedule (s : State) (r : Word32) : (s.complete r).schedule = s.schedule := rfl
@[simp] theorem State.complete_turns (s : State) (r : Word32) : (s.complete r).turns = s.turns := rfl

/-! ## `withFetchWord` -/

@[simp] theorem State.withFetchWord_pc (s : State) (n w : Nat) : (s.withFetchWord n w).cpu.pc = s.cpu.pc := rfl
@[simp] theorem State.withFetchWord_mode (s : State) (n w : Nat) : (s.withFetchWord n w).cpu.mode = s.cpu.mode := rfl
@[simp] theorem State.withFetchWord_program (s : State) (n w : Nat) :
    (s.withFetchWord n w).cpu.program = { base := s.cpu.pc.toNat, length := n / 8 } := rfl
@[simp] theorem State.withFetchWord_others (s : State) (n w : Nat) : (s.withFetchWord n w).others = s.others := rfl
@[simp] theorem State.withFetchWord_text (s : State) (n w : Nat) :
    (s.withFetchWord n w).text = storeText s.text s.cpu.pc.toNat (tableBytes n w) := rfl
@[simp] theorem State.withFetchWord_mem (s : State) (n w : Nat) : (s.withFetchWord n w).mem = s.mem := rfl

/-! ## `handOver` -/

/-- A hand-over keeps the platform. -/
theorem handOver_platform (s : State) :
    (handOver s).keyTable = s.keyTable ∧ (handOver s).mem = s.mem ∧ (handOver s).text = s.text ∧
      (handOver s).config = s.config ∧ (handOver s).answers = s.answers ∧ (handOver s).draws = s.draws := by
  unfold handOver
  cases s.others with
  | nil => exact ⟨rfl, rfl, rfl, rfl, rfl, rfl⟩
  | cons p ps =>
    cases s.turn with
    | zero => exact ⟨rfl, rfl, rfl, rfl, rfl, rfl⟩
    | succ j =>
      simp only
      split <;> exact ⟨rfl, rfl, rfl, rfl, rfl, rfl⟩

/-- Who executes after a hand-over executed or waited before it. -/
theorem handOver_mem (s : State) (p : Processor) (h : p ∈ (handOver s).cpu :: (handOver s).others) :
    p ∈ s.cpu :: s.others := by
  have key : p ∈ (handOver s).cpu :: (handOver s).others → p ∈ s.cpu :: s.others := by
    unfold handOver
    cases hs : s.others with
    | nil => simp [hs]
    | cons q qs =>
      cases s.turn with
      | zero => simp
      | succ j =>
        simp only
        split
        · simp
        · rename_i r hr
          simp only [List.mem_cons]
          rintro (rfl | h')
          · exact Or.inr (List.mem_cons.mp (List.mem_of_getElem? hr))
          · rcases List.mem_or_eq_of_mem_set h' with h'' | rfl
            · exact Or.inr (List.mem_cons.mp h'')
            · exact Or.inl rfl
  exact key h

end Sys2Proof.Machine
end

