-- ==== Sys2Proof/Laws/Pconfig.lean ====
section
/-! SUPPORT. What PCONFIG can do, said once: where it completes, what it then writes, which exceptions it raises. -/

namespace Sys2Proof.Machine

/-- The load answers bytes only for an aligned operand, inside its segment or canonical, translated, in ordinary memory. -/
theorem loadStructure_ok (s : State) (S : List Byte) (h : loadStructure s = .ok S) :
    aligned (structAddress s.cpu) = true ∧ operandOk s.config s.cpu = true ∧
      ∃ a, translateAddress s.cpu (structAddress s.cpu) = .ok a ∧ ordinary s.config a structLength = true ∧
        S = readBytes s.mem a structLength := by
  unfold loadStructure at h
  split at h
  · cases h
  · rename_i hal
    split at h
    · cases h
    · rename_i hin
      split at h
      · cases h
      · rename_i a ha
        split at h
        · cases h
        · rename_i hord
          cases h
          exact ⟨by simpa using hal, by simpa using hin, a, ha, by simpa using hord, rfl⟩

/-- The content checks answer a request only for a structure that passes all four (R116 to R119). -/
theorem checkStructure_ok (s : State) (S : List Byte) (r : Request) (h : checkStructure s S = .ok r) :
    reservedField S = 0 ∧ commandOf (commandField S) = some r.command ∧
      keyIdOk s.cpu.tmeActivate s.config.tmeCapability (keyIdField S).toNat = true ∧
      selectedAlg (activatedAlgs s.cpu.tmeActivate) (algField S) = some r.alg ∧
      r.keyId = (keyIdField S).toNat ∧ r.dataField = dataKeyField S (keyBytes s.config r.alg) ∧
      r.tweakField = tweakKeyField S (keyBytes s.config r.alg) := by
  unfold checkStructure at h
  split at h
  · cases h
  · rename_i hres
    split at h
    · cases h
    · rename_i c hc
      split at h
      · cases h
      · rename_i hk
        split at h
        · cases h
        · rename_i alg halg
          cases h
          exact ⟨by simpa using hres, hc, by simpa using hk, halg, rfl, rfl, rfl⟩

/-- The checks of leaf 0 answer a request only where every one of R112 to R119 passes. -/
theorem keyProgramChecks_ok (s : State) (r : Request) (h : keyProgramChecks s = .ok r) :
    tmeActivated s.cpu.tmeActivate = true ∧ ∃ S, loadStructure s = .ok S ∧ checkStructure s S = .ok r := by
  unfold keyProgramChecks at h
  split at h
  · cases h
  · rename_i hact
    split at h
    · cases h
    · rename_i S hS
      exact ⟨by simpa using hact, S, hS, h⟩

/-- An execution answers a next state only for the bare form, past every check, and that state is the request performed. -/
theorem execPconfig_next (ps : List Prefix) (vex : Option VexForm) (s t : State)
    (h : execPconfig ps vex s = .next t) :
    ps = [] ∧ vex = none ∧ modeOk s.config s.cpu = true ∧ insideAddressSpace s.config s.cpu = true ∧
      gateCheck s = none ∧ ∃ r, keyProgramChecks s = .ok r ∧ t = performRequest r s := by
  unfold execPconfig at h
  split at h
  · cases h
  · rename_i hlisted
    split at h
    · cases h
    · rename_i hps
      split at h
      · cases h
      · rename_i hmode
        split at h
        · cases h
        · rename_i hin
          split at h
          · cases h
          · rename_i hgate
            unfold mktmeKeyProgram at h
            split at h
            · rename_i x _
              cases x <;> cases h
            · rename_i r hr
              cases h
              refine ⟨by simpa using hps, ?_, by simpa using hmode, by simpa using hin, hgate, r, hr, rfl⟩
              cases vex with
              | none => rfl
              | some v => simp at hlisted

/-- The bare form past the prefix, mode and place tests runs the gate checks and leaf 0. -/
theorem execPconfig_bare (s : State) (hm : modeOk s.config s.cpu = true)
    (hi : insideAddressSpace s.config s.cpu = true) :
    execPconfig [] none s =
      match gateCheck s with
      | some e => raise e s
      | none => mktmeKeyProgram s := by
  cases h : gateCheck s <;> simp [execPconfig, hm, hi, h]

/-- A performed request reports a failure and leaves the key table, or succeeds and writes one entry. -/
theorem performRequest_cases (r : Request) (s : State) :
    (∃ reason, platformVerdict s.config s.answer r = .error reason ∧
        performRequest r s = (s.complete reason).drawn) ∨
      (∃ entry, platformVerdict s.config s.answer r = .ok entry ∧
        performRequest r s = ((s.setKeyEntry r.keyId entry).complete 0).drawn) := by
  unfold performRequest
  split
  · rename_i reason h
    exact Or.inl ⟨reason, h, rfl⟩
  · rename_i entry h
    exact Or.inr ⟨entry, h, rfl⟩

/-- The failure reasons (R103, R104): none is 0, and each has the one cause the spec gives it (R122, R125, R5). -/
theorem platformVerdict_error (c : Config) (a : PlatformAnswer) (r : Request) (reason : Word32)
    (h : platformVerdict c a r = .error reason) :
    reason ≠ 0 ∧
      ((reason = 5 ∧ a.lockOk = false) ∨
        (a.lockOk = true ∧ reason = 2 ∧ r.command = .setKeyRandom ∧
          (a.entropyDataOk = false ∨ a.entropyTweakOk = false)) ∨
        (a.lockOk = true ∧ reason ≠ 2 ∧ reason ≠ 5 ∧ a.platformFailure = some reason ∧
          reason ∈ c.extraFailureReasons)) := by
  unfold platformVerdict at h
  split at h
  · rename_i hl
    cases h
    exact ⟨by decide, Or.inl ⟨rfl, hl⟩⟩
  · rename_i hl
    have hl' : a.lockOk = true := by simpa using hl
    split at h
    · rename_i x hr
      cases h
      unfold platformFailure at hr
      split at hr
      · cases hr
      · rename_i y hy
        split at hr
        · rename_i hrr
          cases hr
          exact ⟨hrr.1, Or.inr (Or.inr ⟨hl', hrr.2.1, hrr.2.2.1, hy, hrr.2.2.2⟩)⟩
        · cases hr
    · unfold commandEntry at h
      split at h
      · cases h
      · rename_i hc
        split at h
        · rename_i hd
          cases h
          exact ⟨by decide, Or.inr (Or.inl ⟨hl', rfl, hc, Or.inl hd⟩)⟩
        · split at h
          · rename_i ht
            cases h
            exact ⟨by decide, Or.inr (Or.inl ⟨hl', rfl, hc, Or.inr ht⟩)⟩
          · cases h
      · cases h
      · cases h

/-- The exceptions the checks of leaf 0 raise: `#GP`, or, outside real-address mode, the `#PF` of `Translate`. -/
theorem keyProgramChecks_exception (s : State) (e : Exn) (h : keyProgramChecks s = .error (.exception e)) :
    e = .gp ∨ (∃ code address, e = .pf code address ∧ s.cpu.mode ≠ .real) := by
  unfold keyProgramChecks at h
  split at h
  · cases h; exact Or.inl rfl
  · split at h
    · rename_i x hx
      cases h
      unfold loadStructure at hx
      split at hx
      · cases hx; exact Or.inl rfl
      · split at hx
        · cases hx; exact Or.inl rfl
        · split at hx
          · rename_i e' he
            cases hx
            unfold translateAddress at he
            split at he
            · cases he
            all_goals
              rename_i hmode
              split at he
              · cases he
              · cases he
                exact Or.inr ⟨_, _, rfl, by simp [hmode]⟩
          · split at hx <;> cases hx
    · unfold checkStructure at h
      split at h
      · cases h; exact Or.inl rfl
      · split at h
        · cases h; exact Or.inl rfl
        · split at h
          · cases h; exact Or.inl rfl
          · split at h
            · cases h; exact Or.inl rfl
            · cases h

end Sys2Proof.Machine
end

