-- ==== Sys2Proof/Laws/PerInstr.lean ====
section
/-! SUPPORT. Statements about every instruction, one lemma per constructor of Instr. -/

namespace Sys2Proof.Laws

/-- Every encoding is at least the three opcode bytes of R70 long, one byte more for each prefix. -/
def EncodeLength.Statement (i : Instr) : Prop :=
  match i with
  | .pconfig prefixes _ => prefixes.length + 3 ≤ (encode i).length

/-- PCONFIG's encoding is at least three bytes and its prefixes long. -/
theorem EncodeLength.pconfig (prefixes : List Prefix) (vex : Option VexForm) :
    EncodeLength.Statement (.pconfig prefixes vex) := by
  simp only [EncodeLength.Statement, encode, List.length_append, List.length_map]
  cases vex with
  | none => simp [encodeOpcode]
  | some v => cases v <;> simp [encodeOpcode]

end Sys2Proof.Laws
end

