-- ==== Sys2Proof/Laws/Step.lean ====
section
/-! SUPPORT. What a fetch and a step can do, said once. -/

namespace Sys2Proof.Machine

/-- A run has ended exactly where the program counter is one past the program's last byte (R185). -/
theorem Processor.ended_iff (p : Processor) : p.ended = true ↔ p.pc.toNat = p.program.base + p.program.length := by
  simp [Processor.ended, Program.finish]

/-- The fetch reads no byte once the run has ended. -/
theorem fetchBytes_ended (s : State) (h : s.cpu.ended = true) : fetchBytes s = [] := by
  have h' := (Processor.ended_iff _).mp h
  unfold fetchBytes
  rw [if_pos (by omega), Program.finish, h', Nat.sub_self]
  rfl

/-- The fetch reads no byte outside the program. -/
theorem fetchBytes_outside (s : State)
    (h : s.cpu.pc.toNat < s.cpu.program.base ∨ s.cpu.program.base + s.cpu.program.length ≤ s.cpu.pc.toNat) :
    fetchBytes s = [] := by
  unfold fetchBytes
  split
  · rw [Program.finish, Nat.sub_eq_zero_of_le (by omega)]
    rfl
  · rfl

/-- A run of text depends on the addresses it can reach, and on no other. -/
theorem textRun_congr (t u : Memory) (n a : Nat) (h : ∀ b, a ≤ b → b < a + n → tableFind t b = tableFind u b) :
    textRun t a n = textRun u a n := by
  induction n generalizing a with
  | zero => rfl
  | succ n ih =>
    simp only [textRun, h a (Nat.le_refl a) (by omega)]
    cases tableFind u a with
    | none => rfl
    | some b => simp only [ih (a + 1) fun b h1 h2 => h b (by omega) (by omega)]

/-- Where a step answers a next state, the machine handed over: after an instruction that completed, or, from a processor
whose run had ended, with nothing executed. -/
theorem step_next (s t : State) (h : step s = .next t) :
    ∃ u, t = handOver u ∧ ((s.cpu.ended = true ∧ u = s) ∨ (s.cpu.ended = false ∧ ∃ i, exec i s = .next u)) := by
  unfold step at h
  split at h
  · rename_i he
    unfold endedTurn at h
    split at h
    · cases h
    · cases h
      exact ⟨s, rfl, Or.inl ⟨he, rfl⟩⟩
  · rename_i he
    split at h
    · cases h
    · rename_i i _ _
      split at h
      · rename_i u hu
        cases h
        exact ⟨u, rfl, Or.inr ⟨by simpa using he, i, hu⟩⟩
      · cases h
      · cases h

end Sys2Proof.Machine
end

