-- ==== Sys2Proof/Tests/Slice0.lean ====
section
/-! SUPPORT. Tests on words written out from the spec's encoding (30 R70 to R73, 95 V5), one step of the vectors V1 and V16 (95), and
for every statement with hypotheses a state and operands that meet them, at the boundary values of its clauses. -/

namespace Sys2Proof.Tests

open Sys2Proof Sys2Proof.Machine

/-! ## Decoding: bytes written out from the spec -/

theorem test_decode_bare : decode true [0x0F, 0x01, 0xC5] = .ok (.pconfig [] none, []) := by decide
theorem test_decode_lock : decode false [0xF0, 0x0F, 0x01, 0xC5] = .ok (.pconfig [.lock] none, []) := by decide
theorem test_decode_repne : decode false [0xF2, 0x0F, 0x01, 0xC5] = .ok (.pconfig [.repne] none, []) := by decide
theorem test_decode_66_f3 : decode true [0x66, 0xF3, 0x0F, 0x01, 0xC5] = .ok (.pconfig [.operandSize, .rep] none, []) := by
  decide
theorem test_decode_67 : decode false [0x67, 0x0F, 0x01, 0xC5] = .ok (.pconfig [.addressSize] none, []) := by decide
theorem test_decode_overrides :
    decode false [0x26, 0x2E, 0x36, 0x3E, 0x64, 0x65, 0x0F, 0x01, 0xC5] =
      .ok (.pconfig [.segment .es, .segment .cs, .segment .ss, .segment .ds, .segment .fs, .segment .gs] none, []) := by
  decide
theorem test_decode_rex_only_in_64_bit_mode :
    decode true [0x48, 0x0F, 0x01, 0xC5] = .ok (.pconfig [.rex 8] none, []) ∧
      decode false [0x48, 0x0F, 0x01, 0xC5] = .error .notPconfig := by decide
theorem test_decode_vex_two : decode false [0xC5, 0xF8, 0x01, 0xC5] = .ok (.pconfig [] (some (.two 0xF8)), []) := by decide
theorem test_decode_vex_three :
    decode true [0xC4, 0xE1, 0x78, 0x01, 0xC5] = .ok (.pconfig [] (some (.three 0xE1 0x78)), []) := by decide
theorem test_decode_neighbours :
    decode false [0x0F, 0x01, 0xC4] = .error .notPconfig ∧ decode false [0x0F, 0x01, 0xC6] = .error .notPconfig ∧
      decode false [0x0F, 0x01] = .error .notPconfig ∧ decode false [] = .error .noByte := by decide
theorem test_table_word : decodeTableWord 24 0x0F01C5 = some (.pconfig [] none) := by decide

/-! ## Well-formedness: an ill-formed term for each check -/

theorem test_rex_outside_64_bit_mode_ill_formed : wellFormed false (.pconfig [.lock, .rex 0] none) = false := by decide
theorem test_vex_two_payload_ill_formed : wellFormed false (.pconfig [] (some (.two 0xB8))) = false := by decide
theorem test_vex_three_payload_ill_formed : wellFormed false (.pconfig [] (some (.three 0xA1 0))) = false := by decide
theorem test_vex_three_map_ill_formed : wellFormed true (.pconfig [] (some (.three 0xE2 0))) = false := by decide

/-! ## The test configuration and base state (95, Part 2) -/

/-- K0, with 31 MK_TME_MAX_KEYS where `small`. -/
def k0 (small : Bool) : Config where
  pconfigEnum := true
  supportedTargets := [1]
  has64BitMode := true
  tmeCapability := if small then 0x000001F000000000 else 0x000003F000000000
  lastKeyByte := #v[15, 15, 31, 0, 0, 0, 0, 0, 0, 0, 0, 0, 0, 0, 0, 63]
  extraFailureReasons := []
  segFaults := []
  linearBits := 48
  deviceRanges := []

/-- The processor of B0. -/
def cpu0 : Processor where
  rax := 0
  rbx := 0x100100
  rcx := 0x1111111111111111
  rdx := 0x2222222222222222
  pc := 0x401000
  flags := { zf := true, cf := true, pf := true, af := true, ofl := true, sf := true }
  otherFlags := 0
  mode := .long64
  cpl := 0
  csD := false
  ds := { base := 0, limit := none }
  tmeActivate := 0x0005000600000003
  paging := { listed := [], unlisted := none }
  program := { base := 0x401000, length := 3 }
  number := 0

/-- The draws of B0. -/
def answer0 : PlatformAnswer where
  lockOk := true
  entropyDataOk := true
  entropyTweakOk := true
  rndData := Vector.replicate 64 0xAA
  rndTweak := Vector.replicate 64 0x55
  platformFailure := none

/-- B0 with a structure at 0x100100 that begins with the given bytes and has 01 02 03 in its first key field, 81 in its second. -/
def b0 (head : List Byte) : State where
  cpu := cpu0
  others := []
  keyTable := []
  mem := writeBytes (writeBytes (writeBytes [] 0x100100 head) 0x100140 [1, 2, 3]) 0x100180 [0x81]
  text := [(0x401000, 0x0F), (0x401001, 0x01), (0x401002, 0xC5)]
  config := k0 false
  answers := [answer0]
  draws := 0
  schedule := []
  turns := 0

/-- B0 with a program of the given bytes at 0x401000. -/
def running (bytes : List Byte) : State :=
  { b0 [] with
    cpu := { cpu0 with program := { base := 0x401000, length := bytes.length } }
    text := storeText [] 0x401000 bytes }

/-- The first six bytes of M0, with the command given. -/
def m0 (command : Byte) : List Byte := [5, 0, command, 4, 0, 0]

/-- The same state in protected mode with a DS limit and the upper half of RBX set (V10, V20). -/
def protectedMode (s : State) (limit : Word32) : State :=
  { s with
    cpu := { s.cpu with mode := .protected32, rbx := 0xFFFFFFFF00100100, ds := { base := 0, limit := some limit } } }

/-- The key-table entry an outcome leaves at a KeyID. -/
def entryAfter (o : Host.Outcome State Fault Refusal) (k : Nat) : Option KeyEntry :=
  match o with
  | .next t => some (keyEntry t.keyTable k)
  | .fault _ => none
  | .refused _ => none

/-- The exception an outcome is. -/
def faultOf (o : Host.Outcome State Fault Refusal) : Option Fault :=
  match o with
  | .next _ => none
  | .fault f => some f
  | .refused _ => none

/-- The value an outcome leaves in EAX. -/
def resultOf (o : Host.Outcome State Fault Refusal) : Option Nat :=
  match o with
  | .next t => some (t.cpu.rax.toNat % 2 ^ 32)
  | .fault _ => none
  | .refused _ => none

/-! ## One step of PCONFIG -/

/-- V1 and V15: the first KeyBytes(2) = 32 bytes of both key fields. -/
theorem test_set_key_direct :
    entryAfter (exec barePconfig (b0 (m0 0))) 5 =
      some (.encrypt 2 ([1, 2, 3] ++ List.replicate 29 0) ([0x81] ++ List.replicate 31 0)) := by decide

/-- V16: AA XOR the first key field, 55 XOR the second. -/
theorem test_set_key_random :
    entryAfter (exec barePconfig (b0 (m0 1))) 5 =
      some (.encrypt 2 ([0xAB, 0xA8, 0xA9] ++ List.replicate 29 0xAA) ([0xD4] ++ List.replicate 31 0x55)) := by decide

/-- The first instruction after reset: IA32_TME_ACTIVATE is not locked, so `#GP`, in real-address mode without a code. -/
theorem test_first_after_reset : faultOf (step (State.reset.withFetchWord 24 0x0F01C5)) = some (.generalProtection none) := by
  rfl

/-! ## Witnesses: encoding and the step -/

theorem witness_DecodeEncodeRoundTrip :
    wellFormed true (.pconfig [.segment .gs, .rex 15, .lock] (some (.three 0x01 0xFF))) = true ∧
      wellFormed false (.pconfig [.addressSize] (some (.two 0xC0))) = true := by decide

theorem witness_DecodeReadsOnlyEncodings :
    decode true [0x41, 0x66, 0xC5, 0x00, 0x01, 0xC5, 0x90] = .ok (.pconfig [.rex 1, .operandSize] (some (.two 0)), [0x90]) := by
  decide

theorem witness_StepRunsDecodedInstruction :
    decode (wide (b0 (m0 0)).cpu.mode) (fetchBytes (b0 (m0 0))) = .ok (barePconfig, []) ∧
      wellFormed (wide (b0 (m0 0)).cpu.mode) barePconfig = true := by decide

/-- A text for each clause: the bare bytes; 2E 66 before them; 2E and 48 before them; C4 as their third byte; none at all. -/
theorem witness_StepFollowsTheDecoderRule :
    fetchBytes (b0 []) = 0x0F :: 0x01 :: 0xC5 :: [] ∧
    fetchBytes (running [0x2E, 0x66, 0x0F, 0x01, 0xC5]) = encode (.pconfig [.segment .cs, .operandSize] none) ++ [] ∧
    fetchBytes (running [0x2E, 0x48, 0x0F, 0x01, 0xC5]) = encode (.pconfig [.segment .cs, .rex 8] none) ++ [] ∧
    decode true (fetchBytes (running [0x0F, 0x01, 0xC4])) = .error .notPconfig ∧
    (running [0x0F, 0x01, 0xC4]).cpu.pc.toNat ≠ 0x401000 + 3 ∧
    fetchBytes { b0 [] with text := [] } = [] := by decide

/-- P1, with the next program's text right behind: at the end 0x401003; one byte before and behind; another not ended. -/
def behind (pc : Word64) (others : List Processor) : State :=
  { b0 [] with cpu := { cpu0 with pc := pc }, others := others, text := storeText [] 0x401000 [0x0F, 0x01, 0xC5, 0x0F, 0x01, 0xC5] }

theorem witness_StepAtTheProgramEnd :
    ((behind 0x401003 [cpu0]).cpu.pc.toNat = 0x401000 + 3 ∧ ∃ p ∈ [cpu0], p.pc.toNat ≠ p.program.base + p.program.length) ∧
    (∀ p ∈ [(behind 0x401003 []).cpu], p.pc.toNat = p.program.base + p.program.length) ∧
    (behind 0x400FFF []).cpu.pc.toNat < 0x401000 ∧ 0x401000 + 3 < (behind 0x401004 []).cpu.pc.toNat := by decide

theorem witness_TextOutsideTheProgramIsNotRead :
    ∀ a, cpu0.program.base ≤ a → a < cpu0.program.base + cpu0.program.length →
      tableFind (behind 0x401000 []).text a = tableFind (b0 []).text a := by
  intro a h1 h2
  have h3 : 0x401000 ≤ a := h1
  have h4 : a < 0x401003 := h2
  obtain rfl | rfl | rfl : a = 0x401000 ∨ a = 0x401001 ∨ a = 0x401002 := by omega
  all_goals rfl

/-! ## Witnesses: where PCONFIG stops -/

theorem witness_ListedPrefixRaisesUd :
    (∃ p ∈ [Prefix.addressSize, .lock], p = .lock ∨ p = .repne ∨ p = .rep ∨ p = .operandSize) ∧
      some (VexForm.two 0xF8) ≠ none := by decide

/-- For each clause a state: mode and CPL that exclude each other, a mode the processor lacks, and the last places that stay
inside, and the first that do not, at the end of the 32-bit space, of the 64-bit space and of the lower canonical half. -/
theorem witness_RefusalsByName :
    (∀ p ∈ [Prefix.addressSize], p ≠ .lock ∧ p ≠ .repne ∧ p ≠ .rep ∧ p ≠ .operandSize) ∧
    ({ cpu0 with mode := .real, cpl := 1 }.cpl ≠ 0 ∧ { cpu0 with mode := .v86, cpl := 0 }.cpl ≠ 3 ∧
      { k0 false with has64BitMode := false }.has64BitMode = false) ∧
    (modeOk (k0 false) { cpu0 with mode := .protected32, pc := 0xFFFFFFFD } = true ∧
      2 ^ 32 ≤ (0xFFFFFFFD : Word64).toNat + 3 ∧
      insideAddressSpace (k0 false) { cpu0 with mode := .protected32, pc := 0xFFFFFFFC } = true) ∧
    (modeOk (k0 false) cpu0 = true ∧ 2 ^ 64 ≤ (0xFFFFFFFFFFFFFFFD : Word64).toNat + 3 ∧
      canonical 48 0x0000800000000000 = false ∧ canonical 48 (0x00007FFFFFFFFFFD + 3) = false ∧
      insideAddressSpace (k0 false) { cpu0 with pc := 0x00007FFFFFFFFFFC } = true) := by decide

theorem witness_NotEnumeratedOrUnprivilegedRaisesUd :
    State.meaningful { b0 [] with cpu := { cpu0 with cpl := 1 } } ∧ 0 < ({ cpu0 with cpl := 1 } : Processor).cpl.val ∧
      State.meaningful { b0 [] with config := { k0 false with pconfigEnum := false } } := by decide

theorem witness_VirtualModeRaisesUd : State.meaningful { b0 [] with cpu := { cpu0 with mode := .v86, cpl := 3 } } := by decide

theorem witness_UndefinedLeafRaisesGp :
    State.permitted { b0 [] with cpu := { cpu0 with rax := 1 } } ∧ (1 : Word64).toNat % 2 ^ 32 ≠ 0 := by decide

theorem witness_UpperHalfOfRaxIgnored : (0x100000000 : Word64).toNat % 2 ^ 32 = cpu0.rax.toNat % 2 ^ 32 := by decide

theorem witness_UnsupportedTargetRaisesGp :
    State.permitted { b0 [] with config := { k0 false with supportedTargets := [2] } } ∧ cpu0.rax.toNat % 2 ^ 32 = 0 ∧
      1 ∉ [2] := by decide

/-- V8: not locked, not enabled, no KeyID bits. -/
theorem witness_NotActivatedRaisesGp :
    (b0 []).leafSelected ∧ (0x0005000600000002 : Word64).getLsbD 0 = false ∧
      (0x0005000600000001 : Word64).getLsbD 1 = false ∧ (0x0005000000000003 : Word64).extractLsb' 32 4 = 0 := by decide

theorem witness_MisalignedRaisesGp :
    State.leafSelected { b0 [] with cpu := { cpu0 with rbx := 0x100101 } } ∧
      State.tmeReady { b0 [] with cpu := { cpu0 with rbx := 0x100101 } } ∧
      Processor.linearNumber { cpu0 with rbx := 0x100101 } % 256 ≠ 0 := by decide

/-- V10: the structure at the first address past the lower canonical half. -/
def nonCanonical : State := { b0 [] with cpu := { cpu0 with rbx := 0x0000800000000000 } }

/-- A platform whose `SegCheck` refuses the last byte's offset in real-address mode. -/
def segRefused : State :=
  { b0 [] with
    cpu := { cpu0 with mode := .real }
    config := { k0 false with segFaults := [{ mode := .real, ds := cpu0.ds, first := 0x1001BF, last := 0x1001BF }] } }

/-- The operand is not inside where the model's check says so. -/
theorem not_inside (s : State) (h : operandOk s.config s.cpu = false) : ¬ s.operandInside := fun hin => by
  rw [(operandOk_iff s).mpr hin] at h
  cases h

/-- V10: one byte past the limit, and none past; not canonical; an offset the platform refuses. -/
theorem witness_OutsideSegmentOrNonCanonicalRaisesGp :
    ((protectedMode (b0 []) 0x1001BE).leafSelected ∧ (protectedMode (b0 []) 0x1001BE).tmeReady ∧
      ¬ (protectedMode (b0 []) 0x1001BE).operandInside ∧ (protectedMode (b0 []) 0x1001BF).operandInside) ∧
    (nonCanonical.leafSelected ∧ nonCanonical.tmeReady ∧ ¬ nonCanonical.operandInside) ∧
    segRefused.leafSelected ∧ segRefused.tmeReady ∧ ¬ segRefused.operandInside :=
  ⟨⟨by decide, by decide, not_inside _ (by decide), (operandOk_iff _).mp (by decide)⟩,
    ⟨by decide, by decide, not_inside _ (by decide +kernel)⟩, by decide, by decide, not_inside _ (by decide)⟩

/-- The state whose page of the structure is not present. -/
def unmapped (mode : Mode) : State :=
  { b0 [] with cpu := { cpu0 with mode := mode, paging := { listed := [(0x100, .pageFault 0 191)], unlisted := none } } }

theorem witness_LoadPageFaults :
    ((unmapped .long64).leafSelected ∧ (unmapped .long64).tmeReady ∧ (unmapped .long64).operandAddressable ∧
      pageAnswer (unmapped .long64).cpu.paging ((unmapped .long64).cpu.linearNumber / 4096) = .pageFault 0 191) ∧
    (unmapped .real).leafSelected ∧ (unmapped .real).tmeReady ∧ (unmapped .real).operandAddressable :=
  ⟨⟨by decide, by decide, ⟨by decide, (operandOk_iff _).mp (by decide +kernel)⟩, by decide⟩, by decide, by decide, by decide,
    (operandOk_iff _).mp (by decide)⟩

/-- The state whose structure's last byte is in a device's range. -/
def device : State := { b0 [] with config := { k0 false with deviceRanges := [(0x1001BF, 0x1001BF)] } }

theorem witness_DeviceOperandRefused :
    device.leafSelected ∧ device.tmeReady ∧ device.operandAddressable ∧
      translateAddress device.cpu (BitVec.ofNat 64 device.cpu.linearNumber) = .ok 0x100100 ∧
      (∃ r ∈ device.config.deviceRanges, r.1 ≤ 0x100100 + 191 ∧ 0x100100 ≤ r.2) := by
  exact ⟨by decide, by decide, ⟨by decide, (operandOk_iff _).mp (by decide +kernel)⟩, rfl, by decide⟩

/-- V11, V12, V13: the structures that fail one content check each, at the checks' boundaries. -/
theorem loadsAt_b0 (head : List Byte) : (b0 head).loadsAt 0x100100 := by
  refine ⟨?_, ?_, ?_, ?_, ?_⟩
  · show (b0 []).leafSelected
    decide
  · show (b0 []).tmeReady
    decide
  · show (b0 []).operandAddressable
    exact ⟨by decide +kernel, (operandOk_iff _).mp (by decide +kernel)⟩
  · show translateAddress cpu0 (BitVec.ofNat 64 cpu0.linearNumber) = .ok 0x100100
    decide +kernel
  · exact fun r hr => absurd hr List.not_mem_nil

theorem witness_ReservedBitsRaiseGp :
    ((b0 [5, 0, 0, 4, 0, 1]).loadsAt 0x100100 ∧ (b0 [5, 0, 0, 4, 0, 1]).structNumber 0x100100 5 ≠ 0) ∧
      (b0 [5, 0, 0, 4, 0, 0, 0xFF]).requirements 0x100100 5 0 2 :=
  ⟨⟨loadsAt_b0 _, by decide⟩, loadsAt_b0 _, by decide⟩

theorem witness_CommandCheck :
    ((b0 (m0 4)).loadsAt 0x100100 ∧ 3 < (commandField (readBytes (b0 (m0 4)).mem 0x100100 192)).toNat) ∧
      (b0 (m0 3)).requirements 0x100100 5 3 2 :=
  ⟨⟨loadsAt_b0 _, by decide⟩, loadsAt_b0 _, by decide⟩

/-- KeyIDs 0 and 64 with 6 KeyID bits, 32 where the platform has 31; 63 and 1 are accepted. -/
theorem witness_KeyIdCheck :
    (b0 [64, 0, 0, 4, 0, 0]).loadsAt 0x100100 ∧
    ((keyIdField (readBytes (b0 [0, 0, 0, 4, 0, 0]).mem 0x100100 192)).toNat = 0 ∧
      2 ^ cpu0.keyIdBitsNumber - 1 < (keyIdField (readBytes (b0 [64, 0, 0, 4, 0, 0]).mem 0x100100 192)).toNat ∧
      (k0 true).tmeCapability.toNat / 2 ^ 36 % 2 ^ 15 < (keyIdField (readBytes (b0 [32, 0, 0, 4, 0, 0]).mem 0x100100 192)).toNat) ∧
    (∃ t, exec barePconfig (b0 [63, 0, 0, 4, 0, 0]) = .next t) ∧
    (b0 [63, 0, 0, 4, 0, 0]).contentAt 0x100100 63 0 2 ∧ (b0 [1, 0, 0, 4, 0, 0]).contentAt 0x100100 1 0 2 :=
  ⟨loadsAt_b0 _, by decide, ⟨_, rfl⟩, by decide, by decide⟩

/-- No bit, two activated bits, one bit that is not activated; and the lowest bit, which passes. -/
theorem witness_AlgorithmCheck :
    (b0 [5, 0, 2, 0, 0, 0]).loadsAt 0x100100 ∧
    (¬ ∃ i : Fin 16, algField (readBytes (b0 [5, 0, 2, 0, 0, 0]).mem 0x100100 192) = BitVec.twoPow 16 i.val) ∧
    (¬ ∃ i : Fin 16, algField (readBytes (b0 [5, 0, 0, 5, 0, 0]).mem 0x100100 192) = BitVec.twoPow 16 i.val) ∧
    algField (readBytes (b0 [5, 0, 3, 2, 0, 0]).mem 0x100100 192) &&& cpu0.tmeActivate.extractLsb' 48 16 = 0 ∧
    (b0 [5, 0, 0, 1, 0, 0]).contentAt 0x100100 5 0 0 ∧ (b0 [5, 0, 0, 1, 0, 0]).granted :=
  ⟨loadsAt_b0 _, by decide, by decide, by decide, by decide, rfl, List.forall_mem_nil _⟩

theorem witness_OnlyThreeExceptions :
    exec (.pconfig [.lock] none) (b0 []) = .fault .invalidOpcode ∧
      exec barePconfig (b0 [5, 0, 4]) = .fault (.generalProtection (some 0)) ∧
      exec barePconfig (unmapped .long64) = .fault (.pageFault 0 0x1001BF) :=
  ⟨rfl, rfl, rfl⟩

/-! ## Witnesses: where PCONFIG completes -/

theorem witness_SetKeyDirectCompletes : (b0 (m0 0)).requirements 0x100100 5 0 2 ∧ (b0 (m0 0)).granted :=
  ⟨⟨loadsAt_b0 _, by decide⟩, rfl, List.forall_mem_nil _⟩

theorem witness_SetKeyRandomCompletes :
    ((b0 (m0 1)).requirements 0x100100 5 1 2 ∧ (b0 (m0 1)).granted) ∧ (b0 (m0 1)).answer.entropyDataOk = true ∧
      (b0 (m0 1)).answer.entropyTweakOk = true :=
  ⟨⟨⟨loadsAt_b0 _, by decide⟩, rfl, List.forall_mem_nil _⟩, rfl, rfl⟩

theorem witness_ClearKeyCompletes : (b0 (m0 2)).requirements 0x100100 5 2 2 ∧ (b0 (m0 2)).granted :=
  ⟨⟨loadsAt_b0 _, by decide⟩, rfl, List.forall_mem_nil _⟩

theorem witness_NoEncryptCompletes : (b0 (m0 3)).requirements 0x100100 5 3 2 ∧ (b0 (m0 3)).granted :=
  ⟨⟨loadsAt_b0 _, by decide⟩, rfl, List.forall_mem_nil _⟩

/-- A state whose next platform answer is given, and whose platform may report reason 7 (V23). -/
def answering (command : Byte) (a : PlatformAnswer) : State :=
  { b0 (m0 command) with answers := [a], config := { k0 false with extraFailureReasons := [7] } }

theorem requirements_answering (command : Byte) (a : PlatformAnswer) (c : Nat)
    (h : (b0 (m0 command)).contentAt 0x100100 5 c 2) : (answering command a).requirements 0x100100 5 c 2 :=
  ⟨loadsAt_b0 (m0 command), h⟩

theorem witness_DeviceBusyReported :
    (answering 2 { answer0 with lockOk := false }).requirements 0x100100 5 2 2 ∧
      (answering 2 { answer0 with lockOk := false }).answer.lockOk = false :=
  ⟨requirements_answering _ _ _ (by decide), rfl⟩

theorem witness_EntropyErrorReported :
    ((answering 1 { answer0 with entropyDataOk := false }).requirements 0x100100 5 1 2 ∧
      (answering 1 { answer0 with entropyDataOk := false }).granted ∧
      (answering 1 { answer0 with entropyDataOk := false }).answer.entropyDataOk = false) ∧
    (answering 1 { answer0 with entropyTweakOk := false }).granted ∧
      (answering 1 { answer0 with entropyTweakOk := false }).answer.entropyTweakOk = false :=
  ⟨⟨requirements_answering _ _ _ (by decide), ⟨rfl, List.forall_mem_nil _⟩, rfl⟩, ⟨rfl, List.forall_mem_nil _⟩, rfl⟩

theorem witness_PlatformFailureReported :
    (answering 0 { answer0 with platformFailure := some 7 }).requirements 0x100100 5 0 2 ∧
      (answering 0 { answer0 with platformFailure := some 7 }).answer.lockOk = true ∧
      (answering 0 { answer0 with platformFailure := some 7 }).answer.platformFailure = some 7 ∧
      ((7 : Word32) ≠ 0 ∧ (7 : Word32) ≠ 2 ∧ (7 : Word32) ≠ 5) ∧
      (7 : Word32) ∈ (answering 0 { answer0 with platformFailure := some 7 }).config.extraFailureReasons :=
  ⟨requirements_answering _ _ _ (by decide), rfl, rfl, by decide, by decide⟩

/-- R125: a platform configured with reason 2 and answering it cannot make command 0 report ENTROPY_ERROR; command 1 does,
without entropy. -/
theorem test_only_command_1_reports_2 :
    resultOf (exec barePconfig
        { answering 0 { answer0 with platformFailure := some 2 } with
          config := { k0 false with extraFailureReasons := [2, 7] } }) = some 0 ∧
      resultOf (exec barePconfig (answering 1 { answer0 with entropyTweakOk := false })) = some 2 := by decide

theorem witness_FailureReasonsHaveOneCause :
    (answering 1 { answer0 with entropyDataOk := false }).requirements 0x100100 5 1 2 ∧
      resultOf (exec barePconfig (answering 1 { answer0 with entropyDataOk := false })) = some 2 ∧
      (answering 2 { answer0 with lockOk := false }).requirements 0x100100 5 2 2 ∧
      resultOf (exec barePconfig (answering 2 { answer0 with lockOk := false })) = some 5 ∧
      (answering 0 { answer0 with platformFailure := some 7 }).requirements 0x100100 5 0 2 ∧
      resultOf (exec barePconfig (answering 0 { answer0 with platformFailure := some 7 })) = some 7 :=
  ⟨requirements_answering _ _ _ (by decide), by decide, requirements_answering _ _ _ (by decide), by decide,
    requirements_answering _ _ _ (by decide), by decide⟩

theorem witness_CompletionFrame :
    (∃ t, exec barePconfig (b0 (m0 0)) = .next t) ∧ (b0 (m0 0)).operandAt 0x100100 :=
  ⟨⟨_, rfl⟩, (loadsAt_b0 _).2.2⟩

theorem witness_RetryWithoutReloadRaisesGp :
    ∃ t, exec barePconfig (answering 0 { answer0 with lockOk := false }) = .next t ∧ t.cpu.flags.zf = true ∧ t.meaningful :=
  ⟨_, rfl, rfl, by decide⟩

/-! ## Witnesses: what PCONFIG does not depend on, invariants, tables -/

theorem witness_RandomKeysReachOnlyTheKeyTable :
    answer0.lockOk = { answer0 with rndData := Vector.replicate 64 0 }.lockOk ∧
      answer0 ≠ { answer0 with rndData := Vector.replicate 64 0 } := by decide

theorem witness_UpperHalfOfRbxIgnoredOutside64BitMode :
    (protectedMode (b0 (m0 0)) 0x1001BF).cpu.mode ≠ .long64 ∧
      (0x100100 : Word64).toNat % 2 ^ 32 = (protectedMode (b0 (m0 0)) 0x1001BF).cpu.rbx.toNat % 2 ^ 32 := by decide

/-- Another byte 6, and another byte 96, the first beyond the 32 of KeyBytes(2). -/
theorem witness_IgnoredBytesHaveNoEffect :
    (b0 (m0 0)).requirements 0x100100 5 0 2 ∧
      ∀ o, o < 6 ∨ (64 ≤ o ∧ o < 64 + keyBytes (b0 (m0 0)).config 2) ∨
          (128 ≤ o ∧ o < 128 + keyBytes (b0 (m0 0)).config 2) →
        readByte (writeByte (writeByte (b0 (m0 0)).mem 0x100106 0xFF) 0x100160 0xEE) (0x100100 + o) =
          readByte (b0 (m0 0)).mem (0x100100 + o) := by
  refine ⟨⟨loadsAt_b0 _, by decide⟩, fun o h => ?_⟩
  have hk : keyBytes (b0 (m0 0)).config 2 = 32 := rfl
  have hw : ∀ (m : Memory) (a b : Nat) (v : Byte), b ≠ a → readByte (writeByte m a v) b = readByte m b :=
    fun m a b v hab => (tableSet_read _ m a b v).trans (if_neg hab)
  rw [hw _ _ _ _ (by omega), hw _ _ _ _ (by omega)]

/-- A well-formed state with a second processor, an entry and a schedule that hands over, and its next state. -/
def two : State :=
  { b0 (m0 3) with
    others := [{ cpu0 with mode := .protected32, cpl := 3, number := 1 }]
    keyTable := [(5, .encrypt 0 (List.replicate 16 1) (List.replicate 16 2))]
    schedule := [1] }

theorem legal_two : two.legal := by
  refine ⟨by decide, ⟨by decide, fun e he => ?_⟩, by decide, by decide, by decide⟩
  obtain rfl := List.mem_singleton.mp he
  exact ⟨by decide, rfl, rfl⟩

theorem witness_StepKeepsLegal : two.legal ∧ ∃ t, step two = .next t ∧ t.cpu.cpl = 3 := ⟨legal_two, _, rfl, rfl⟩

theorem witness_KeyIdZeroFollowsTme : two.legal ∧ ∃ t, step two = .next t := ⟨legal_two, _, rfl⟩

theorem witness_RunWritesNoMemory : ∃ t, Host.Core.run Sys2Proof.core 1 two = .next t := ⟨_, rfl⟩

/-- A processor at its program's end, while another executes. -/
theorem witness_EndedProcessorStays :
    { cpu0 with pc := 0x401003 } ∈ ({ two with others := [{ cpu0 with pc := 0x401003 }] } : State).processors ∧
      ({ cpu0 with pc := 0x401003 } : Processor).pc.toNat = 0x401000 + 3 ∧
      ∃ t, Host.Core.run Sys2Proof.core 1 { two with others := [{ cpu0 with pc := 0x401003 }] } = .next t :=
  ⟨List.mem_cons_of_mem _ List.mem_cons_self, by decide, _, rfl⟩

/-- P1 ends successfully after one step, at 0x401003; in `two` the second processor, at CPL 3, ends unsuccessfully. -/
theorem witness_RunEndsInOneWay :
    two.legal ∧ (∃ t, endsSuccessfully 0 1 two t) ∧ endsUnsuccessfully 1 1 two ∧ ¬ endsUnsuccessfully 0 0 two := by
  refine ⟨legal_two, ⟨_, rfl, _, List.mem_cons_of_mem _ List.mem_cons_self, rfl, rfl⟩, ⟨_, rfl, rfl, rfl, fun u h => ?_⟩, ?_⟩
  · cases h
  · rintro ⟨t, h, -, -, hu⟩
    cases h
    exact hu _ rfl

theorem witness_MemoryReadAfterWrite :
    Memory.wf [(3, 1), (5, 2)] ∧ Memory.wf (writeByte (writeByte [] 5 2) 3 1) ∧
      writeByte [(3, 1), (5, 2)] 5 0 = [(3, 1)] := by decide

theorem witness_KeyTableReadAfterWrite : tableWf KeyEntry.tmeDefault two.keyTable := by decide

end Sys2Proof.Tests
end

section
/-! PROOFS. The write of a key-table entry and of a byte of memory (O51, O52). -/

namespace Sys2Proof.Machine

/-- The listed entries of a table in canonical form are its reads other than the default. -/
theorem mem_iff_read_of_tableWf {α : Type} {d : α} {t : List (Nat × α)} (h : tableWf d t) (e : Nat × α) :
    e ∈ t ↔ e.2 ≠ d ∧ (tableFind t e.1).getD d = e.2 := by
  obtain ⟨hsorted, hdefault⟩ := h
  constructor
  · intro he
    exact ⟨hdefault e he, by rw [tableFind_of_mem t hsorted e he, Option.getD_some]⟩
  · rintro ⟨hne, hread⟩
    cases hfind : tableFind t e.1 with
    | none => exact absurd (by rw [← hread, hfind, Option.getD_none]) hne
    | some v =>
      rw [hfind, Option.getD_some] at hread
      exact mem_of_tableFind t e.1 e.2 (hfind.trans (congrArg some hread))

/-- A table in canonical form is determined by its reads. -/
theorem tableWf_ext {α : Type} {d : α} {t u : List (Nat × α)} (ht : tableWf d t) (hu : tableWf d u)
    (h : ∀ k, (tableFind t k).getD d = (tableFind u k).getD d) : t = u := by
  have : Std.Irrefl fun a b : Nat × α => a.1 < b.1 := ⟨fun a => Nat.lt_irrefl a.1⟩
  have : Std.Antisymm fun a b : Nat × α => a.1 < b.1 := ⟨fun _ _ hab hba => absurd hab (Nat.lt_asymm hba)⟩
  refine ht.1.eq_of_mem_iff hu.1 fun e => ?_
  rw [mem_iff_read_of_tableWf ht, mem_iff_read_of_tableWf hu, h]

/-- An entry of the key table reads back as written, and every other as before. -/
theorem keyEntry_setKeyEntry (s : State) (k j : Nat) (e : KeyEntry) :
    keyEntry (s.setKeyEntry k e).keyTable j = if j = k then e else keyEntry s.keyTable j :=
  tableSet_read KeyEntry.tmeDefault s.keyTable k j e

/-- A byte of memory reads back as written, and every other as before. -/
theorem readByte_writeByte (m : Memory) (a b : Nat) (v : Byte) :
    readByte (writeByte m a v) b = if b = a then v else readByte m b :=
  tableSet_read unwrittenByte m a b v

/-- Settles O51, from the rules of a table write. -/
theorem keyTableReadAfterWrite : Obligations.KeyTableReadAfterWrite := by
  unfold Obligations.KeyTableReadAfterWrite
  intro s k j e
  exact ⟨keyEntry_setKeyEntry s k j e, tableWf_set .tmeDefault s.keyTable k e⟩

/-- Settles O52: the reads by the rules of a table write, the equality because a canonical table is
determined by its reads. -/
theorem memoryReadAfterWrite : Obligations.MemoryReadAfterWrite := by
  unfold Obligations.MemoryReadAfterWrite
  refine ⟨fun m a b v => ?_, fun m n hm hn hread => ?_⟩
  · exact ⟨readByte_writeByte m a b v, Memory.wf_writeByte m a v⟩
  · exact tableWf_ext hm hn hread

end Sys2Proof.Machine
end

section
/-! PROOFS. The refusals of PCONFIG by name (O13). -/

namespace Sys2Proof.Machine

/-- The prefixes R72 does not list. -/
theorem prefixListed_eq_false_iff (p : Prefix) :
    prefixListed p = false ↔ p ≠ .lock ∧ p ≠ .repne ∧ p ≠ .rep ∧ p ≠ .operandSize := by
  cases p <;> simp [prefixListed]

/-- The modes and privilege levels no processor is in (R28, D26). -/
theorem modeOk_eq_false_iff (c : Config) (p : Processor) :
    modeOk c p = false ↔
      (p.mode = .real ∧ p.cpl ≠ 0) ∨ (p.mode = .v86 ∧ p.cpl ≠ 3) ∨
        ((p.mode = .compat ∨ p.mode = .long64) ∧ c.has64BitMode = false) := by
  unfold modeOk
  cases p.mode <;> simp

/-- Outside 64-bit mode the instruction and its successor stay below `2^32` (R25). -/
theorem insideAddressSpace_iff_of_not_long64 (c : Config) (p : Processor) (h : p.mode ≠ .long64) :
    insideAddressSpace c p = true ↔ p.pc.toNat + 3 < 2 ^ 32 := by
  have hw : wide p.mode = false := Bool.eq_false_iff.mpr (mt (wide_iff _).mp h)
  rw [insideAddressSpace, if_neg (Bool.eq_false_iff.mp hw), pconfigLength, decide_eq_true_iff]

/-- In 64-bit mode the instruction's bytes and its successor are canonical, without a wrap (R25). -/
theorem insideAddressSpace_iff_of_long64 (c : Config) (p : Processor) (h : p.mode = .long64) :
    insideAddressSpace c p = true ↔
      p.pc.toNat + 3 < 2 ^ 64 ∧ ∀ k < 4, canonical c.linearBits (p.pc + BitVec.ofNat 64 k) = true := by
  rw [insideAddressSpace, if_pos ((wide_iff _).mpr h), pconfigLength, Bool.and_eq_true, decide_eq_true_iff,
    List.all_eq_true]
  simp only [List.mem_range, Nat.reduceAdd]

/-- A run of prefixes of R73 alone is refused, whatever the state. -/
theorem exec_unlistedPrefix (ps : List Prefix) (s : State) (hlisted : ∀ p ∈ ps, prefixListed p = false)
    (hne : ps ≠ []) : exec (.pconfig ps none) s = .refused .unlistedPrefix := by
  have hany : ¬ (ps.any prefixListed = true ∨ (none : Option VexForm).isSome = true) := by
    simpa using hlisted
  rw [exec, execPconfig, if_neg hany, if_pos hne]

/-- The bare form is refused in a mode and privilege level no processor is in. -/
theorem exec_barePconfig_of_not_modeOk (s : State) (h : modeOk s.config s.cpu = false) :
    exec barePconfig s = .refused .illFormedMode := by
  simp [exec, execPconfig, h]

/-- The bare form is refused at the end of the address space. -/
theorem exec_barePconfig_of_not_inside (s : State) (hm : modeOk s.config s.cpu = true)
    (h : insideAddressSpace s.config s.cpu = false) : exec barePconfig s = .refused .addressSpaceEnd := by
  simp [exec, execPconfig, hm, h]

/-- Settles O13: one refusal for each test of `execPconfig`, in its order. -/
theorem refusalsByName : Obligations.RefusalsByName := by
  unfold Obligations.RefusalsByName
  intro ps s hps
  refine ⟨exec_unlistedPrefix ps s fun p hp => (prefixListed_eq_false_iff p).mpr (hps p hp), ?_⟩
  rintro rfl
  refine ⟨fun hmode => ?_, fun hm hmode hpc => ?_, fun hm hmode hpc => ?_⟩
  · exact exec_barePconfig_of_not_modeOk s ((modeOk_eq_false_iff _ _).mpr hmode)
  · refine exec_barePconfig_of_not_inside s hm (Bool.eq_false_iff.mpr fun hin => ?_)
    have := (insideAddressSpace_iff_of_not_long64 _ _ hmode).mp hin
    omega
  · refine exec_barePconfig_of_not_inside s hm (Bool.eq_false_iff.mpr fun hin => ?_)
    obtain ⟨hwrap, hcanonical⟩ := (insideAddressSpace_iff_of_long64 _ _ hmode).mp hin
    have hfirst : canonical s.config.linearBits s.cpu.pc = true := by
      simpa using hcanonical 0 (by decide)
    have hnext : canonical s.config.linearBits (s.cpu.pc + 3) = true := hcanonical 3 (by decide)
    rcases hpc with hpc | hpc | hpc
    · omega
    · exact absurd hfirst (Bool.eq_false_iff.mp hpc)
    · exact absurd hnext (Bool.eq_false_iff.mp hpc)

end Sys2Proof.Machine
end

section
/-! PROOFS. From the requirements of R174 to the request that is performed, and a platform-specific failure (O35). -/

namespace Sys2Proof.Machine

/-! ## The gate checks -/

/-- The gate checks pass exactly where PCONFIG is enumerated, at CPL 0, for leaf 0, with target 1 supported (R91 to R93). -/
theorem gateCheck_eq_none_iff (s : State) :
    gateCheck s = none ↔
      s.config.pconfigEnum = true ∧ s.cpu.cpl = 0 ∧ s.cpu.rax.toNat % 2 ^ 32 = 0 ∧ 1 ∈ s.config.supportedTargets := by
  rw [← eax_eq_zero]
  simp only [gateCheck, ite_eq_iff, reduceCtorEq, and_false, false_or, and_true, not_or, Bool.not_eq_false, not_not,
    and_assoc]
  rfl

/-! ## The structure's content -/

/-- The COMMAND value that names a command (R80). -/
def Command.number : Command → Nat
  | .setKeyDirect => 0
  | .setKeyRandom => 1
  | .clearKey => 2
  | .noEncrypt => 3

theorem commandOf_eq_some_iff (b : Byte) (command : Command) : commandOf b = some command ↔ b.toNat = command.number := by
  rw [commandOf_iff]
  cases command <;> rfl

theorem Command.exists_number_eq (c : Nat) (h : c ≤ 3) : ∃ command : Command, command.number = c := by
  match c, h with
  | 0, _ => exact ⟨.setKeyDirect, rfl⟩
  | 1, _ => exact ⟨.setKeyRandom, rfl⟩
  | 2, _ => exact ⟨.clearKey, rfl⟩
  | 3, _ => exact ⟨.noEncrypt, rfl⟩

/-- What the structure at `a` asks for, once its KeyID, command and algorithm are known: the key fields are the first
KeyBytes bytes at offsets 64 and 128 (R129). -/
def State.requestAt (s : State) (a k : Nat) (command : Command) (i : Fin 16) : Request where
  keyId := k
  command := command
  alg := i
  dataField := readBytes s.mem (a + 64) (keyBytes s.config i)
  tweakField := readBytes s.mem (a + 128) (keyBytes s.config i)

theorem keyBytes_le (c : Config) (i : Fin 16) : keyBytes c i ≤ 64 := (c.lastKeyByte[i]).isLt

/-- The key fields of a structure read at `a` are reads at offsets 64 and 128. -/
theorem dataKeyField_readBytes (m : Memory) (a n : Nat) (h : n ≤ 64) :
    dataKeyField (readBytes m a 192) n = readBytes m (a + 64) n :=
  readBytes_drop_take m a 192 64 n (by omega)

theorem tweakKeyField_readBytes (m : Memory) (a n : Nat) (h : n ≤ 64) :
    tweakKeyField (readBytes m a 192) n = readBytes m (a + 128) n :=
  readBytes_drop_take m a 192 128 n (by omega)

/-- A structure whose content meets rows 10 to 13 of R174 passes the content checks, which answer what it asks for. -/
theorem checkStructure_of_contentAt (s : State) (a k : Nat) (command : Command) (i : Fin 16)
    (h : s.contentAt a k command.number i) :
    checkStructure s (readBytes s.mem a 192) = .ok (s.requestAt a k command i) := by
  obtain ⟨hreserved, ⟨hcommand, -⟩, ⟨hkeyId, hrange⟩, halg, hactive⟩ := h
  have reserved_zero : reservedField (readBytes s.mem a 192) = 0 := by
    rw [reservedField_eq, structByte_readBytes _ _ _ (by decide), ← BitVec.toNat_inj]
    exact hreserved
  have command_named : commandOf (commandField (readBytes s.mem a 192)) = some command := by
    rw [commandField_eq, structByte_readBytes _ _ _ (by decide), commandOf_eq_some_iff]
    exact hcommand
  have keyId_eq : (keyIdField (readBytes s.mem a 192)).toNat = k := by
    rw [keyIdField, le16_toNat, structByte_readBytes _ _ _ (by decide), structByte_readBytes _ _ _ (by decide)]
    exact hkeyId
  have keyId_ok : keyIdOk s.cpu.tmeActivate s.config.tmeCapability k = true := (keyIdOk_iff s k).mpr hrange
  have alg_selected : selectedAlg (activatedAlgs s.cpu.tmeActivate) (algField (readBytes s.mem a 192)) = some i := by
    refine (selectedAlg_iff _ _ i).mpr ⟨?_, ?_⟩
    · rw [algField_toNat, structByte_readBytes _ _ _ (by decide), structByte_readBytes _ _ _ (by decide)]
      exact halg
    · simpa [activatedAlgs] using hactive
  simp [checkStructure, reserved_zero, command_named, keyId_eq, keyId_ok, alg_selected, State.requestAt,
    dataKeyField_readBytes, tweakKeyField_readBytes, keyBytes_le]

/-! ## The request performed -/

/-- Where rows 1 to 13 of R174 hold, the bare form performs what the structure asks for. -/
theorem exec_of_requirements (s : State) (a k : Nat) (command : Command) (i : Fin 16)
    (h : s.requirements a k command.number i) :
    exec barePconfig s = .next (performRequest (s.requestAt a k command i) s) := by
  obtain ⟨⟨⟨⟨⟨hmode, hinside⟩, henum, hcpl⟩, hleaf, htarget⟩, hready, hoperand⟩, hcontent⟩ := h
  have gate : gateCheck s = none := (gateCheck_eq_none_iff s).mpr ⟨henum, hcpl, hleaf, htarget⟩
  have activated : tmeActivated s.cpu.tmeActivate = true := (tmeActivated_iff s).mpr hready
  have loaded : loadStructure s = .ok (readBytes s.mem a 192) := (loadStructure_iff s _).mpr ⟨a, hoperand, rfl⟩
  have checks : keyProgramChecks s = .ok (s.requestAt a k command i) := by
    simp [keyProgramChecks, activated, loaded, checkStructure_of_contentAt s a k command i hcontent]
  simp [exec, execPconfig_bare s hmode hinside, gate, mktmeKeyProgram, checks]

/-- The same for a COMMAND value: the bare form performs a request of the command it names. -/
theorem exec_of_requirements_number (s : State) (a k c : Nat) (i : Fin 16) (h : s.requirements a k c i) :
    ∃ command : Command, command.number = c ∧
      exec barePconfig s = .next (performRequest (s.requestAt a k command i) s) := by
  have ⟨_, _, ⟨_, hcommand⟩, _⟩ := h
  obtain ⟨command, rfl⟩ := Command.exists_number_eq c hcommand
  exact ⟨command, rfl, exec_of_requirements s a k command i h⟩

/-! ## The completion -/

/-- EAX after a completion is the result, in every mode. -/
theorem resultRax_low (mode : Mode) (high result : Word32) : (resultRax mode high result).extractLsb' 0 32 = result := by
  cases mode with
  | long64 => exact BitVec.eq_of_toNat_eq (by simpa [resultRax] using result.isLt)
  | real | protected32 | v86 | compat => exact BitVec.extractLsb'_append_eq_right

/-- The model's tail of a reported failure, with its draw made, is the completion the statements speak of (R95 to R101). -/
theorem completedAs_complete_drawn (s : State) (result : Word32) : s.completedAs (s.complete result).drawn result := by
  refine ⟨?_, fun hmode => ?_, rfl, rfl⟩
  · rw [State.drawn_cpu, State.complete_rax, resultRax_low]
  · rw [State.drawn_cpu, State.complete_rax, hmode, resultRax]

/-- A request that the platform turns away is performed by reporting the reason. -/
theorem performRequest_of_error (r : Request) (s : State) (reason : Word32)
    (h : platformVerdict s.config s.answer r = .error reason) :
    performRequest r s = (s.complete reason).drawn := by
  rw [performRequest, h]

/-- Where the lock is granted, a configured reason besides 0, 2 and 5 is the verdict on every request (R104, R5). -/
theorem platformVerdict_of_platformFailure (c : Config) (a : PlatformAnswer) (r : Request) (reason : Word32)
    (hlock : a.lockOk = true) (hanswer : a.platformFailure = some reason) (h0 : reason ≠ 0) (h2 : reason ≠ 2)
    (h5 : reason ≠ 5) (hlisted : reason ∈ c.extraFailureReasons) :
    platformVerdict c a r = .error reason := by
  have failure : platformFailure c a = some reason := by
    rw [platformFailure, hanswer]
    exact if_pos ⟨h0, h2, h5, hlisted⟩
  simp [platformVerdict, hlock, failure]

/-- Settles O35: the request of the requirements is turned away with the platform's reason. -/
theorem platformFailureReported : Obligations.PlatformFailureReported := by
  unfold Obligations.PlatformFailureReported
  intro s a k c i reason hreq hlock hanswer h0 h2 h5 hlisted
  obtain ⟨command, -, hexec⟩ := exec_of_requirements_number s a k c i hreq
  have verdict := platformVerdict_of_platformFailure s.config s.answer (s.requestAt a k command i) reason
    hlock hanswer h0 h2 h5 hlisted
  rw [performRequest_of_error _ _ _ verdict] at hexec
  exact ⟨_, hexec, completedAs_complete_drawn s reason, rfl⟩

end Sys2Proof.Machine
end

section
/-! PROOFS. What a step, a hand-over and a run do (O4, O11). -/

namespace Sys2Proof.Machine

/-! ## The hand-over -/

/-- A hand-over leaves the machine, or makes one choice of the schedule: it keeps the processor, or exchanges it for one of
the others. -/
theorem handOver_cases (s : State) :
    (s.others = [] ∧ handOver s = s) ∨
      handOver s = { s with schedule := s.schedule.tail, turns := s.turns + 1 } ∨
      ∃ j p, s.others[j]? = some p ∧
        handOver s =
          { s with cpu := p, others := s.others.set j s.cpu, schedule := s.schedule.tail, turns := s.turns + 1 } := by
  unfold handOver
  split
  · rename_i hothers
    exact Or.inl ⟨hothers, rfl⟩
  · refine Or.inr ?_
    split
    · exact Or.inl rfl
    · rename_i j _
      split
      · exact Or.inl rfl
      · rename_i p hp
        exact Or.inr ⟨j, p, hp, rfl⟩

/-- The logical processors after a hand-over are those before it, in another order. -/
theorem handOver_processors_perm (s : State) : (handOver s).processors.Perm s.processors := by
  obtain ⟨-, h⟩ | h | ⟨j, p, hp, h⟩ := handOver_cases s
  · rw [h]
  · rw [h]
  · have exchanged := s.others.getD_set_perm_cons j s.cpu
    rw [hp, Option.getD_some] at exchanged
    rw [h]
    exact exchanged

/-- A hand-over changes who executes and who waits, and the queue of choices. -/
theorem handOver_frame (s : State) :
    handOver s =
      { s with
        cpu := (handOver s).cpu
        others := (handOver s).others
        schedule := (handOver s).schedule
        turns := (handOver s).turns } := by
  obtain ⟨-, h⟩ | h | ⟨j, p, -, h⟩ := handOver_cases s <;> rw [h]

/-- Settles O11, from what a hand-over can do. -/
theorem handOverOnlyChooses : Obligations.HandOverOnlyChooses := by
  unfold Obligations.HandOverOnlyChooses
  intro s
  refine ⟨handOver_processors_perm s, handOver_frame s, fun hothers => ?_⟩
  unfold handOver
  rw [hothers]

/-! ## The step -/

/-- The step of a processor whose run has ended is its turn. -/
theorem step_of_ended (s : State) (hended : s.cpu.ended = true) : step s = endedTurn s := by
  rw [step, if_pos hended]

/-- Where no instruction stands at the program counter and the run has not ended, a step is the rejection's refusal. -/
theorem step_of_decode_error (s : State) (e : Reject) (hended : s.cpu.ended = false)
    (h : decode (wide s.cpu.mode) (fetchBytes s) = .error e) : step s = .refused (rejectRefusal e) := by
  rw [step, if_neg (Bool.eq_false_iff.mp hended), h]

/-- Where an instruction is fetched the run has not ended: at its end there is no byte. -/
theorem not_ended_of_decode_ok (s : State) (x : Instr × List Byte)
    (h : decode (wide s.cpu.mode) (fetchBytes s) = .ok x) : s.cpu.ended = false := by
  by_contra hended
  rw [fetchBytes_ended s (by simpa using hended)] at h
  cases h

/-- Where an instruction is fetched, a step executes it and hands over. -/
theorem step_of_decode_ok (s : State) (i : Instr) (rest : List Byte)
    (h : decode (wide s.cpu.mode) (fetchBytes s) = .ok (i, rest)) : step s = mapNext handOver (exec i s) := by
  simp only [step, not_ended_of_decode_ok s _ h, h]
  cases exec i s <;> rfl

/-- Settles O4, whether or not the instruction is well formed. -/
theorem stepRunsDecodedInstruction : Obligations.StepRunsDecodedInstruction := by
  unfold Obligations.StepRunsDecodedInstruction
  intro s i rest hdecode _
  exact step_of_decode_ok s i rest hdecode

/-! ## Runs -/

/-- What every step of a machine keeps, every run of it keeps. -/
theorem run_keeps (M : Host.Core) (P : M.State → Prop) (hstep : ∀ s t, P s → M.step s = .next t → P t) (n : Nat)
    (s t : M.State) (hs : P s) (h : M.run n s = .next t) : P t := by
  induction n generalizing s with
  | zero =>
    cases h
    exact hs
  | succ n ih =>
    unfold Host.Core.run at h
    split at h
    · rename_i u hu
      exact ih u (hstep s u hs hu) h
    · cases h
    · cases h

end Sys2Proof.Machine
end

section
/-! PROOFS. What a completed PCONFIG changes (O38). -/

namespace Sys2Proof.Machine

/-- An instruction answers a next state only in a mode and a place with a meaning, past every check, and that state is the
request performed. -/
theorem exec_next (i : Instr) (s t : State) (h : exec i s = .next t) :
    modeOk s.config s.cpu = true ∧ insideAddressSpace s.config s.cpu = true ∧
      ∃ r, keyProgramChecks s = .ok r ∧ t = performRequest r s := by
  cases i with
  | pconfig ps vex =>
    obtain ⟨-, -, hmode, hinside, -, hrequest⟩ := execPconfig_next ps vex s t h
    exact ⟨hmode, hinside, hrequest⟩

/-- The tail of a success, with its entry written and its draw made, is the completion the statements speak of. -/
theorem completedAs_setKeyEntry_complete_drawn (s : State) (k : Nat) (e : KeyEntry) :
    s.completedAs ((s.setKeyEntry k e).complete 0).drawn 0 :=
  completedAs_complete_drawn (s.setKeyEntry k e) 0

/-- A performed request completes with 0, 2, 5 or a configured reason, and writes at most its own KeyID's entry, and that
with result 0 alone. -/
theorem performRequest_completes (r : Request) (s : State) :
    ∃ result : Word32, s.completedAs (performRequest r s) result ∧
      (result = 0 ∨ result = 2 ∨ result = 5 ∨ result ∈ s.config.extraFailureReasons) ∧
      (result ≠ 0 → (performRequest r s).keyTable = s.keyTable) ∧
      ∀ j, j ≠ r.keyId → keyEntry (performRequest r s).keyTable j = keyEntry s.keyTable j := by
  obtain ⟨reason, hverdict, h⟩ | ⟨entry, -, h⟩ := performRequest_cases r s
  · rw [h]
    refine ⟨reason, completedAs_complete_drawn s reason, ?_, fun _ => rfl, fun _ _ => rfl⟩
    obtain ⟨-, ⟨h5, -⟩ | ⟨-, h2, -⟩ | ⟨-, -, -, -, hlisted⟩⟩ := platformVerdict_error _ _ _ _ hverdict
    · exact Or.inr (Or.inr (Or.inl h5))
    · exact Or.inr (Or.inl h2)
    · exact Or.inr (Or.inr (Or.inr hlisted))
  · rw [h]
    refine ⟨0, completedAs_setKeyEntry_complete_drawn s _ _, Or.inl rfl, fun hne => absurd rfl hne, fun j hj => ?_⟩
    exact (keyEntry_setKeyEntry s r.keyId j entry).trans (if_neg hj)

/-- The request that passes the checks has the KeyID of the structure's first two bytes (R55, R56). -/
theorem keyProgramChecks_keyId (s : State) (r : Request) (a : Nat) (h : keyProgramChecks s = .ok r)
    (ha : s.operandAt a) : r.keyId = s.structNumber a 0 + 256 * s.structNumber a 1 := by
  obtain ⟨-, S, hload, hcheck⟩ := keyProgramChecks_ok s r h
  have loaded : loadStructure s = .ok (readBytes s.mem a 192) := (loadStructure_iff s _).mpr ⟨a, ha, rfl⟩
  obtain rfl : S = readBytes s.mem a 192 := Except.ok.inj (hload.symm.trans loaded)
  obtain ⟨-, -, -, -, hkeyId, -, -⟩ := checkStructure_ok s _ r hcheck
  rw [hkeyId, keyIdField, le16_toNat, structByte_readBytes _ _ _ (by decide), structByte_readBytes _ _ _ (by decide)]

/-- Settles O38: every completion is a request performed, and its KeyID is the structure's. -/
theorem completionFrame : Obligations.CompletionFrame := by
  unfold Obligations.CompletionFrame
  intro i s t h
  obtain ⟨-, -, r, hchecks, rfl⟩ := exec_next i s t h
  obtain ⟨result, hcompleted, hresult, hfailed, hentries⟩ := performRequest_completes r s
  refine ⟨result, hcompleted, hresult, hfailed, fun a ha j hj => hentries j ?_⟩
  rwa [keyProgramChecks_keyId s r a hchecks ha]

end Sys2Proof.Machine
end

section
/-! PROOFS. What every step keeps: the well-formed state, KeyID 0, memory, text and configuration (O46 to O50). -/

namespace Sys2Proof.Machine

/-! ## The request and the entry it writes -/

/-- A request's KeyID is one a key table may list, and its key fields have the length its algorithm uses. -/
structure Request.legal (c : Config) (r : Request) : Prop where
  keyId : 1 ≤ r.keyId ∧ r.keyId ≤ c.tmeCapability.toNat / 2 ^ 36 % 2 ^ 15 ∧ r.keyId < 2 ^ 15
  dataField : r.dataField.length = keyBytes c r.alg
  tweakField : r.tweakField.length = keyBytes c r.alg

/-- The checks answer only legal requests: the KeyID by R118, with at most 15 KeyID bits, the fields by R129. -/
theorem keyProgramChecks_legal (s : State) (r : Request) (h : keyProgramChecks s = .ok r) : r.legal s.config := by
  obtain ⟨-, S, hload, hcheck⟩ := keyProgramChecks_ok s r h
  obtain ⟨a, -, rfl⟩ := (loadStructure_iff s S).mp hload
  obtain ⟨-, -, hkey, -, hkeyId, hdata, htweak⟩ := checkStructure_ok s _ r hcheck
  obtain ⟨hone, hbits, hmax⟩ := (keyIdOk_iff s _).mp hkey
  have hkb := keyBytes_le s.config r.alg
  have hpow : 2 ^ s.cpu.keyIdBitsNumber ≤ 2 ^ 15 :=
    Nat.pow_le_pow_right (by decide) (by unfold Processor.keyIdBitsNumber; omega)
  rw [← hkeyId] at hone hbits hmax
  refine ⟨⟨hone, hmax, by omega⟩, ?_, ?_⟩
  · rw [hdata, dataKeyField_readBytes _ _ _ hkb, readBytes_length]
  · rw [htweak, tweakKeyField_readBytes _ _ _ hkb, readBytes_length]

/-- A key drawn at random has the length of the field it is combined with (R124). -/
theorem xorBytes_take_length (rnd : Vector Byte 64) (field : List Byte) (h : field.length ≤ 64) :
    (xorBytes (rnd.toList.take field.length) field).length = field.length := by
  simp [xorBytes, h]

/-- The entry a legal request writes has keys of its algorithm's length. -/
theorem commandEntry_legal (c : Config) (a : PlatformAnswer) (r : Request) (e : KeyEntry) (hr : r.legal c)
    (h : commandEntry c a r = .ok e) : e.legal c := by
  have hkb := keyBytes_le c r.alg
  unfold commandEntry at h
  split at h
  · cases h
    exact ⟨hr.dataField, hr.tweakField⟩
  · split at h
    · cases h
    · split at h
      · cases h
      · cases h
        constructor
        · rw [← hr.dataField] at hkb ⊢
          exact xorBytes_take_length _ _ hkb
        · rw [← hr.tweakField] at hkb ⊢
          exact xorBytes_take_length _ _ hkb
  · cases h
    trivial
  · cases h
    trivial

/-- The platform's verdict is an entry only where it is the command's. -/
theorem platformVerdict_ok (c : Config) (a : PlatformAnswer) (r : Request) (e : KeyEntry)
    (h : platformVerdict c a r = .ok e) : commandEntry c a r = .ok e := by
  unfold platformVerdict at h
  split at h
  · cases h
  · split at h
    · cases h
    · exact h

/-! ## Well-formed states -/

/-- A write of a KeyID that may be listed, with keys of the right length, keeps the key table well formed. -/
theorem keyTableLegal_set (c : Config) (t : List (Nat × KeyEntry)) (k : Nat) (e : KeyEntry) (ht : keyTableLegal c t)
    (hk : 1 ≤ k ∧ k ≤ c.tmeCapability.toNat / 2 ^ 36 % 2 ^ 15 ∧ k < 2 ^ 15) (he : e.legal c) :
    keyTableLegal c (tableSet .tmeDefault t k e) := by
  obtain ⟨hwf, hentries⟩ := ht
  refine ⟨tableWf_set _ t k e hwf, fun x hx => ?_⟩
  obtain rfl | hx := mem_tableSet _ t k e x hx
  · exact ⟨hk, he⟩
  · exact hentries x hx

/-- A legal request performed keeps the key table well formed. -/
theorem performRequest_keyTableLegal (r : Request) (s : State) (hr : r.legal s.config)
    (h : keyTableLegal s.config s.keyTable) : keyTableLegal s.config (performRequest r s).keyTable := by
  obtain ⟨reason, -, hp⟩ | ⟨entry, hverdict, hp⟩ := performRequest_cases r s
  · rw [hp]
    exact h
  · rw [hp]
    exact keyTableLegal_set _ _ _ _ h hr.keyId (commandEntry_legal _ _ _ _ hr (platformVerdict_ok _ _ _ _ hverdict))

/-- A processor stays well formed when it completes at a place inside the address space (R25, R28). -/
theorem Processor.legal_completed (c : Config) (p : Processor) (rax : Word64) (f : Flags) (h : p.legal c)
    (hinside : insideAddressSpace c p = true) :
    Processor.legal c { p with rax := rax, flags := f, pc := p.pc + 3 } := by
  obtain ⟨hmode, -⟩ := h
  refine ⟨hmode, fun hnot => ?_⟩
  have hpc := (insideAddressSpace_iff_of_not_long64 c p hnot).mp hinside
  show (p.pc + 3).toNat < 2 ^ 32
  rw [BitVec.toNat_add]
  exact Nat.lt_of_le_of_lt (Nat.mod_le _ _) hpc

/-- An instruction that completes keeps a state well formed. -/
theorem exec_keeps_legal (i : Instr) (s t : State) (hs : s.legal) (h : exec i s = .next t) : t.legal := by
  obtain ⟨-, hinside, r, hchecks, rfl⟩ := exec_next i s t h
  obtain ⟨result, ⟨-, -, hcpu, hrest⟩, -⟩ := performRequest_completes r s
  obtain ⟨hprocessors, htable, hmem, htext, hnumbers⟩ := hs
  have table := performRequest_keyTableLegal r s (keyProgramChecks_legal s r hchecks) htable
  obtain ⟨hlegal, hplaced⟩ := hprocessors s.cpu List.mem_cons_self
  have cpu : (performRequest r s).cpu.legal s.config := by
    rw [hcpu]
    exact Processor.legal_completed s.config s.cpu _ _ hlegal hinside
  rw [hrest]
  refine ⟨fun p hp => ?_, table, hmem, htext, ?_⟩
  · obtain rfl | hp := List.mem_cons.mp hp
    · refine ⟨cpu, ?_⟩
      show Program.placed s.text (performRequest r s).cpu.program
      rw [hcpu]
      exact hplaced
    · exact hprocessors p (List.mem_cons_of_mem _ hp)
  · show ((performRequest r s).cpu.number :: s.others.map Processor.number).Nodup
    rw [hcpu]
    exact hnumbers

/-- A hand-over keeps a state well formed: the processors are the same ones, the platform is the same. -/
theorem handOver_keeps_legal (s : State) (hs : s.legal) : (handOver s).legal := by
  obtain ⟨hprocessors, htable, hmem, htext, hnumbers⟩ := hs
  obtain ⟨keyTable_eq, mem_eq, text_eq, config_eq, -, -⟩ := handOver_platform s
  have perm := handOver_processors_perm s
  unfold State.legal
  rw [keyTable_eq, mem_eq, text_eq, config_eq]
  exact ⟨fun p hp => hprocessors p (perm.mem_iff.mp hp), htable, hmem, htext,
    (perm.map Processor.number).nodup_iff.mpr hnumbers⟩

/-- Settles O46: an instruction that completes and the hand-over after it each keep a state well formed. -/
theorem stepKeepsLegal : Obligations.StepKeepsLegal := by
  unfold Obligations.StepKeepsLegal
  intro s t hs h
  obtain ⟨u, rfl, ⟨-, rfl⟩ | ⟨-, i, hexec⟩⟩ := step_next s t h
  · exact handOver_keeps_legal _ hs
  · exact handOver_keeps_legal u (exec_keeps_legal i s u hs hexec)

/-- Settles O47: the one processor is in real-address mode at CPL 0, and every table is empty. -/
theorem resetIsLegal : Obligations.ResetIsLegal := by
  unfold Obligations.ResetIsLegal
  have cpu : Processor.reset.legal State.reset.config := ⟨rfl, by decide⟩
  have program : Program.placed State.reset.text Processor.reset.program := by decide
  refine ⟨fun p hp => ?_, ⟨by decide, fun _ he => absurd he List.not_mem_nil⟩, State.reset_mem_wf, by decide, by decide⟩
  obtain rfl := List.mem_singleton.mp hp
  exact ⟨cpu, program⟩

/-- Settles O48: no KeyID is listed in the table of reset. -/
theorem resetKeyTableFollowsTme : Obligations.ResetKeyTableFollowsTme := by
  unfold Obligations.ResetKeyTableFollowsTme
  intro k
  rfl

/-- In a well-formed key table KeyID 0 follows TME: the KeyIDs listed are from 1 on (R38). -/
theorem keyEntry_zero_of_legal (c : Config) (t : List (Nat × KeyEntry)) (h : keyTableLegal c t) :
    keyEntry t 0 = .tmeDefault := by
  obtain ⟨-, hentries⟩ := h
  have unlisted : tableFind t 0 = none := by
    by_contra hfind
    obtain ⟨e, he⟩ := Option.ne_none_iff_exists'.mp hfind
    obtain ⟨⟨hone, -⟩, -⟩ := hentries _ (mem_of_tableFind t 0 e he)
    exact Nat.not_succ_le_zero 0 hone
  rw [keyEntry, unlisted, Option.getD_none]

/-- Settles O49: a step keeps the state well formed, and there KeyID 0 follows TME. -/
theorem keyIdZeroFollowsTme : Obligations.KeyIdZeroFollowsTme := by
  unfold Obligations.KeyIdZeroFollowsTme
  have entry_zero : ∀ s : State, s.legal → keyEntry s.keyTable 0 = .tmeDefault := by
    rintro s ⟨-, htable, -⟩
    exact keyEntry_zero_of_legal s.config s.keyTable htable
  exact fun s hs => ⟨entry_zero s hs, fun t ht => entry_zero t (stepKeepsLegal s t hs ht)⟩

/-! ## What no step writes -/

/-- Memory, program text and configuration of `t` are those of `s`. -/
def State.sameStore (s t : State) : Prop := t.mem = s.mem ∧ t.text = s.text ∧ t.config = s.config

/-- An instruction that completes writes no memory, program text or configuration. -/
theorem exec_sameStore (i : Instr) (s t : State) (h : exec i s = .next t) : s.sameStore t := by
  obtain ⟨-, -, r, -, rfl⟩ := exec_next i s t h
  obtain ⟨result, ⟨-, -, -, hrest⟩, -⟩ := performRequest_completes r s
  rw [hrest]
  exact ⟨rfl, rfl, rfl⟩

/-- A step writes no memory, program text or configuration. -/
theorem step_sameStore (s t : State) (h : step s = .next t) : s.sameStore t := by
  obtain ⟨u, rfl, hu⟩ := step_next s t h
  have before : s.sameStore u := by
    obtain ⟨-, rfl⟩ | ⟨-, i, hexec⟩ := hu
    · exact ⟨rfl, rfl, rfl⟩
    · exact exec_sameStore i s u hexec
  obtain ⟨hmem, htext, hconfig⟩ := before
  obtain ⟨-, mem_eq, text_eq, config_eq, -, -⟩ := handOver_platform u
  exact ⟨mem_eq.trans hmem, text_eq.trans htext, config_eq.trans hconfig⟩

/-- Settles O50: no step writes them, so no run does. -/
theorem runWritesNoMemory : Obligations.RunWritesNoMemory := by
  unfold Obligations.RunWritesNoMemory
  intro n s t h
  refine run_keeps Sys2Proof.core s.sameStore (fun u v hu hstep => ?_) n s t ⟨rfl, rfl, rfl⟩ h
  obtain ⟨hmem, htext, hconfig⟩ := hu
  obtain ⟨mem_eq, text_eq, config_eq⟩ := step_sameStore u v hstep
  exact ⟨mem_eq.trans hmem, text_eq.trans htext, config_eq.trans hconfig⟩

end Sys2Proof.Machine
end

section
/-! PROOFS. What a step and an execution do not depend on (O7, O40, O42, O43, O44). -/

namespace Sys2Proof.Machine

/-! ## Two states the checks do not tell apart -/

/-- The tests of PCONFIG answer alike in both states: its mode and place, its gate, the request, and the platform's verdict. -/
structure SameChecks (s u : State) : Prop where
  mode : u.cpu.mode = s.cpu.mode
  modeOk : modeOk u.config u.cpu = modeOk s.config s.cpu
  inside : insideAddressSpace u.config u.cpu = insideAddressSpace s.config s.cpu
  gate : gateCheck u = gateCheck s
  request : keyProgramChecks u = keyProgramChecks s
  verdict : ∀ r, platformVerdict u.config u.answer r = platformVerdict s.config s.answer r

/-- A request performed in two such states differs as the two completions do. -/
theorem performRequest_congr {s u : State} {f g : State → State} (h : SameChecks s u)
    (hfailed : ∀ reason, f (u.complete reason).drawn = g (s.complete reason).drawn)
    (hwritten : ∀ k e, f ((u.setKeyEntry k e).complete 0).drawn = g ((s.setKeyEntry k e).complete 0).drawn)
    (r : Request) : f (performRequest r u) = g (performRequest r s) := by
  rw [performRequest, performRequest, h.verdict]
  cases platformVerdict s.config s.answer r with
  | error reason => exact hfailed reason
  | ok entry => exact hwritten r.keyId entry

/-- Whatever the checks answer ends the execution alike in two states of one mode. -/
theorem mapNext_stop {s u : State} (f g : State → State) (hmode : u.cpu.mode = s.cpu.mode) (x : Stop) :
    mapNext f (stop x u) = mapNext g (stop x s) := by
  cases x with
  | exception e => simp [stop, raise, hmode, mapNext]
  | refusal r => rfl

/-- Noninterference: where the checks do not tell two states apart, an instruction's outcomes differ as the two completions
do. -/
theorem exec_congr {s u : State} {f g : State → State} (h : SameChecks s u)
    (hfailed : ∀ reason, f (u.complete reason).drawn = g (s.complete reason).drawn)
    (hwritten : ∀ k e, f ((u.setKeyEntry k e).complete 0).drawn = g ((s.setKeyEntry k e).complete 0).drawn)
    (i : Instr) : mapNext f (exec i u) = mapNext g (exec i s) := by
  have stops := fun x => mapNext_stop f g h.mode x
  cases i with
  | pconfig ps vex =>
    simp only [exec, execPconfig, h.modeOk, h.inside, h.gate, mktmeKeyProgram, h.request]
    split
    · exact stops (.exception .ud)
    split
    · rfl
    split
    · rfl
    split
    · rfl
    cases gateCheck s with
    | some e => exact stops (.exception e)
    | none =>
      cases keyProgramChecks s with
      | error x => exact stops x
      | ok r => exact congrArg Host.Outcome.next (performRequest_congr h hfailed hwritten r)

/-- An outcome with its next state left alone is itself. -/
theorem mapNext_id (o : Host.Outcome State Fault Refusal) : mapNext id o = o := by cases o <;> rfl

/-- Noninterference where only one of the two next states is changed. -/
theorem exec_eq_mapNext {s u : State} {g : State → State} (h : SameChecks s u)
    (hfailed : ∀ reason, (u.complete reason).drawn = g (s.complete reason).drawn)
    (hwritten : ∀ k e, ((u.setKeyEntry k e).complete 0).drawn = g ((s.setKeyEntry k e).complete 0).drawn)
    (i : Instr) : exec i u = mapNext g (exec i s) := by
  rw [← mapNext_id (exec i u)]
  exact exec_congr (f := id) h hfailed hwritten i

/-- Two changes of the next state, one after the other, are their composition. -/
theorem mapNext_mapNext (f g : State → State) (o : Host.Outcome State Fault Refusal) :
    mapNext f (mapNext g o) = mapNext (f ∘ g) o := by cases o <;> rfl

/-! ## What an execution does not read -/

/-- Settles O40: no check looks at the key table. -/
theorem keyTableIsHidden : Obligations.KeyTableIsHidden := by
  unfold Obligations.KeyTableIsHidden
  intro i s table
  have same : SameChecks s { s with keyTable := table } := ⟨rfl, rfl, rfl, rfl, rfl, fun _ => rfl⟩
  refine exec_congr same ?_ ?_ i
  · exact fun _ => rfl
  · exact fun _ _ => rfl

/-- Settles O42: no check looks at a flag, and a completion overwrites the six. -/
theorem flagsAreNotRead : Obligations.FlagsAreNotRead := by
  unfold Obligations.FlagsAreNotRead
  intro i s f w
  refine exec_eq_mapNext ?_ (fun _ => rfl) (fun _ _ => rfl) i
  exact ⟨rfl, rfl, rfl, rfl, rfl, fun _ => rfl⟩

/-- Settles O43: no check looks at CS.D, and no completion writes it. -/
theorem codeSegmentSizeBitIsNotRead : Obligations.CodeSegmentSizeBitIsNotRead := by
  unfold Obligations.CodeSegmentSizeBitIsNotRead
  intro i s d
  refine exec_eq_mapNext ?_ (fun _ => rfl) (fun _ _ => rfl) i
  exact ⟨rfl, rfl, rfl, rfl, rfl, fun _ => rfl⟩

/-! ## The upper half of RBX -/

/-- Outside 64-bit mode the offset of the structure is that of any RBX with the same low half (R51). -/
theorem structOffset_of_low_eq (p : Processor) (r : Word64) (hmode : p.mode ≠ .long64)
    (hr : r.toNat % 2 ^ 32 = p.rbx.toNat % 2 ^ 32) : structOffset { p with rbx := r } = structOffset p := by
  rw [← BitVec.toNat_inj, structOffset_toNat, structOffset_toNat, Processor.offsetNumber, Processor.offsetNumber,
    if_neg hmode, if_neg hmode, hr]

/-- The structure is the same for any RBX that gives the same offset: RBX takes no other part in the load. -/
theorem loadStructure_of_structOffset_eq (s : State) (r : Word64)
    (h : structOffset { s.cpu with rbx := r } = structOffset s.cpu) :
    loadStructure { s with cpu := { s.cpu with rbx := r } } = loadStructure s := by
  have address : structAddress { s.cpu with rbx := r } = structAddress s.cpu := by
    unfold structAddress
    rw [h]
    rfl
  have inside : operandOk s.config { s.cpu with rbx := r } = operandOk s.config s.cpu := by
    unfold operandOk
    rw [address, h]
  unfold loadStructure
  rw [address, inside]
  rfl

/-- The request is the same for any RBX that gives the same offset. -/
theorem keyProgramChecks_of_structOffset_eq (s : State) (r : Word64)
    (h : structOffset { s.cpu with rbx := r } = structOffset s.cpu) :
    keyProgramChecks { s with cpu := { s.cpu with rbx := r } } = keyProgramChecks s := by
  unfold keyProgramChecks
  rw [loadStructure_of_structOffset_eq s r h]
  rfl

/-- Settles O44: outside 64-bit mode RBX enters the checks through EBX alone. -/
theorem upperHalfOfRbxIgnoredOutside64BitMode : Obligations.UpperHalfOfRbxIgnoredOutside64BitMode := by
  unfold Obligations.UpperHalfOfRbxIgnoredOutside64BitMode
  intro i s r hmode hr
  have request := keyProgramChecks_of_structOffset_eq s r (structOffset_of_low_eq s.cpu r hmode hr)
  refine exec_eq_mapNext ?_ (fun _ => rfl) (fun _ _ => rfl) i
  exact ⟨rfl, rfl, rfl, rfl, request, fun _ => rfl⟩

/-! ## Program text outside the program -/

/-- The fetch reads the processor's own program and no other text (R185). -/
theorem fetchBytes_withText (s : State) (text : Memory)
    (h : ∀ a, s.cpu.program.base ≤ a → a < s.cpu.program.base + s.cpu.program.length →
      tableFind text a = tableFind s.text a) :
    fetchBytes { s with text := text } = fetchBytes s := by
  have run : s.cpu.program.base ≤ s.cpu.pc.toNat →
      textRun text s.cpu.pc.toNat (s.cpu.program.finish - s.cpu.pc.toNat) =
        textRun s.text s.cpu.pc.toNat (s.cpu.program.finish - s.cpu.pc.toNat) := fun hbase => by
    refine textRun_congr _ _ _ _ fun b hfrom hto => h b (by omega) ?_
    unfold Program.finish at hto
    omega
  unfold fetchBytes
  exact if_ctx_congr Iff.rfl run fun _ => rfl

/-- An execution reads no program text. -/
theorem exec_withText (i : Instr) (s : State) (text : Memory) :
    exec i { s with text := text } = mapNext (fun t => { t with text := text }) (exec i s) := by
  refine exec_eq_mapNext ?_ (fun _ => rfl) (fun _ _ => rfl) i
  exact ⟨rfl, rfl, rfl, rfl, rfl, fun _ => rfl⟩

/-- A hand-over reads no program text. -/
theorem handOver_withText (s : State) (text : Memory) :
    handOver { s with text := text } = { handOver s with text := text } := by
  unfold handOver State.turn
  cases hothers : s.others with
  | nil => simp only [hothers]
  | cons p ps =>
    simp only
    cases s.schedule.headD (Config.freeTurn s.turns) with
    | zero => rfl
    | succ j =>
      simp only
      cases (p :: ps)[j]? <;> rfl

/-- The turn of a processor whose run has ended reads no program text. -/
theorem endedTurn_withText (s : State) (text : Memory) :
    endedTurn { s with text := text } = mapNext (fun t => { t with text := text }) (endedTurn s) := by
  unfold endedTurn
  rw [handOver_withText]
  split <;> rfl

/-- Settles O7: the fetch is the one place where a step reads text, and it keeps to the program. -/
theorem textOutsideTheProgramIsNotRead : Obligations.TextOutsideTheProgramIsNotRead := by
  unfold Obligations.TextOutsideTheProgramIsNotRead
  intro s text htext
  have fetch := fetchBytes_withText s text htext
  cases hended : s.cpu.ended with
  | true =>
    rw [step_of_ended s hended, ← endedTurn_withText]
    exact step_of_ended { s with text := text } hended
  | false =>
    cases hdecode : decode (wide s.cpu.mode) (fetchBytes s) with
    | error e =>
      rw [step_of_decode_error s e hended hdecode]
      rw [← fetch] at hdecode
      exact step_of_decode_error { s with text := text } e hended hdecode
    | ok x =>
      obtain ⟨i, rest⟩ := x
      rw [step_of_decode_ok s i rest hdecode, mapNext_mapNext]
      rw [← fetch] at hdecode
      rw [step_of_decode_ok { s with text := text } i rest hdecode, exec_withText, mapNext_mapNext]
      exact congrArg (mapNext · _) (funext fun t => handOver_withText t text)

end Sys2Proof.Machine
end

section
/-! PROOFS. Where the load of the structure stops (O20 to O23). -/

namespace Sys2Proof.Machine

/-! ## From leaf 0 to the outcome -/

/-- `#GP` records error code 0, and in real-address mode none (R140, R146). -/
theorem raise_gp (s : State) :
    raise .gp s = .fault (.generalProtection (if s.cpu.mode = .real then none else some 0)) := by
  unfold raise exnFault
  cases s.cpu.mode <;> rfl

/-- With rows 1 to 5 of R174 met, the bare form runs leaf 0. -/
theorem exec_of_leafSelected (s : State) (h : s.leafSelected) : exec barePconfig s = mktmeKeyProgram s := by
  obtain ⟨⟨⟨hmode, hinside⟩, henum, hcpl⟩, hleaf, htarget⟩ := h
  have gate : gateCheck s = none := (gateCheck_eq_none_iff s).mpr ⟨henum, hcpl, hleaf, htarget⟩
  simp [exec, execPconfig_bare s hmode hinside, gate]

/-- With rows 1 to 6 of R174 met, the load is the first check that can fail, and a load that stops ends the execution. -/
theorem exec_of_loadStructure_error (s : State) (x : Stop) (hleaf : s.leafSelected) (hready : s.tmeReady)
    (hload : loadStructure s = .error x) : exec barePconfig s = stop x s := by
  have activated : tmeActivated s.cpu.tmeActivate = true := (tmeActivated_iff s).mpr hready
  have checks : keyProgramChecks s = .error x := by simp [keyProgramChecks, activated, hload]
  simp [exec_of_leafSelected s hleaf, mktmeKeyProgram, checks]

/-- A fault of leaf 0 is an exception of its checks: the writes raise none. -/
theorem mktmeKeyProgram_fault (s : State) (f : Fault) (h : mktmeKeyProgram s = .fault f) :
    ∃ e, keyProgramChecks s = .error (.exception e) ∧ f = exnFault s.cpu.mode e := by
  unfold mktmeKeyProgram at h
  split at h
  · rename_i x hx
    cases x with
    | exception e =>
      cases h
      exact ⟨e, hx, rfl⟩
    | refusal r => cases h
  · cases h

/-! ## Where the load stops -/

/-- An operand that fails row 7 or row 8 of R174 stops the load with `#GP`, whichever of the two it fails. -/
theorem loadStructure_of_not_addressable (s : State) (h : ¬ s.operandAddressable) :
    loadStructure s = .error (.exception .gp) := by
  unfold loadStructure
  split
  · rfl
  · rename_i haligned
    have inside_fails : operandOk s.config s.cpu = false := Bool.eq_false_iff.mpr fun hok =>
      h ⟨(aligned_iff s.cpu).mp (by simpa using haligned), (operandOk_iff s).mp hok⟩
    rw [if_pos inside_fails]

/-- With rows 7 and 8 of R174 met, an exception of the translation stops the load. -/
theorem loadStructure_of_translate_error (s : State) (e : Exn) (h : s.operandAddressable)
    (htranslate : translateAddress s.cpu (structAddress s.cpu) = .error e) :
    loadStructure s = .error (.exception e) := by
  obtain ⟨haligned, hinside⟩ := h
  simp [loadStructure, (aligned_iff s.cpu).mpr haligned, (operandOk_iff s).mpr hinside, htranslate]

/-- With rows 7 and 8 of R174 met, a structure translated to a place that is not ordinary memory stops the load. -/
theorem loadStructure_of_not_ordinary (s : State) (a : Nat) (h : s.operandAddressable)
    (htranslate : translateAddress s.cpu (structAddress s.cpu) = .ok a)
    (hdevice : ordinary s.config a structLength = false) :
    loadStructure s = .error (.refusal .notOrdinaryMemory) := by
  obtain ⟨haligned, hinside⟩ := h
  simp [loadStructure, (aligned_iff s.cpu).mpr haligned, (operandOk_iff s).mpr hinside, htranslate, hdevice]

/-- Outside real-address mode the page's fault is the translation's, at a byte of the operand (R59, R60). -/
theorem translateAddress_of_pageFault (p : Processor) (lin : Word64) (code : Nat) (byte : Fin 192)
    (hmode : p.mode ≠ .real) (h : pageAnswer p.paging (lin.toNat / 4096) = .pageFault code byte) :
    translateAddress p lin = .error (.pf code (lin + BitVec.ofNat 64 byte.val)) := by
  unfold translateAddress
  cases hm : p.mode with
  | real => exact absurd hm hmode
  | protected32 | v86 | compat | long64 => simp only [pageSize, h]

/-- An aligned structure does not wrap at the end of the address space: its bytes follow its first. -/
theorem structAddress_add_toNat (p : Processor) (byte : Fin 192) (haligned : p.linearNumber % 256 = 0) :
    (structAddress p + BitVec.ofNat 64 byte.val).toNat = p.linearNumber + byte.val := by
  have := linearNumber_lt p
  have := byte.isLt
  rw [BitVec.toNat_add, structAddress_toNat, BitVec.toNat_ofNat]
  omega

/-! ## The exceptions and the refusal -/

/-- With rows 1 to 6 of R174 met, an operand that fails row 7 or row 8 raises `#GP` (R113, R114). -/
theorem exec_of_not_addressable (s : State) (hleaf : s.leafSelected) (hready : s.tmeReady)
    (h : ¬ s.operandAddressable) :
    exec barePconfig s = .fault (.generalProtection (if s.cpu.mode = .real then none else some 0)) :=
  (exec_of_loadStructure_error s _ hleaf hready (loadStructure_of_not_addressable s h)).trans (raise_gp s)

/-- In real-address mode, which has no paging, PCONFIG raises no `#PF` (R59, C5). -/
theorem exec_ne_pageFault_of_real (s : State) (hleaf : s.leafSelected) (hmode : s.cpu.mode = .real) (code : Nat)
    (address : Word64) : exec barePconfig s ≠ .fault (.pageFault code address) := by
  intro h
  rw [exec_of_leafSelected s hleaf] at h
  obtain ⟨e, hchecks, hfault⟩ := mktmeKeyProgram_fault s _ h
  obtain rfl | ⟨_, _, -, hpaged⟩ := keyProgramChecks_exception s e hchecks
  · cases hfault
  · exact hpaged hmode

/-- Settles O20: a misaligned operand is not addressable. -/
theorem misalignedRaisesGp : Obligations.MisalignedRaisesGp := by
  unfold Obligations.MisalignedRaisesGp
  intro s hleaf hready hmisaligned
  exact exec_of_not_addressable s hleaf hready fun ⟨haligned, _⟩ => hmisaligned haligned

/-- Settles O21: an operand outside is not addressable. -/
theorem outsideSegmentOrNonCanonicalRaisesGp : Obligations.OutsideSegmentOrNonCanonicalRaisesGp := by
  unfold Obligations.OutsideSegmentOrNonCanonicalRaisesGp
  intro s hleaf hready houtside
  exact exec_of_not_addressable s hleaf hready fun ⟨_, hinside⟩ => houtside hinside

/-- Settles O22: the fault is the translation's, and its address does not wrap because the operand is aligned. -/
theorem loadPageFaults : Obligations.LoadPageFaults := by
  unfold Obligations.LoadPageFaults
  intro s hleaf hready haddressable
  refine ⟨fun hmode code byte hpage => ?_, fun hmode => exec_ne_pageFault_of_real s hleaf hmode⟩
  rw [← structAddress_toNat] at hpage
  have translated := translateAddress_of_pageFault s.cpu _ code byte hmode hpage
  have load := loadStructure_of_translate_error s _ haddressable translated
  have address_eq := structAddress_add_toNat s.cpu byte haddressable.left
  have := byte.isLt
  exact ⟨_, exec_of_loadStructure_error s _ hleaf hready load, by omega, by omega⟩

/-- Settles O23: a byte in a listed range is not ordinary memory, which the load tests once it has the translation. -/
theorem deviceOperandRefused : Obligations.DeviceOperandRefused := by
  unfold Obligations.DeviceOperandRefused
  rintro s a hleaf hready haddressable htranslate ⟨r, hr, hfirst, hlast⟩
  rw [← structAddress_eq] at htranslate
  have not_ordinary : ordinary s.config a structLength = false := Bool.eq_false_iff.mpr fun hordinary => by
    have := (ordinary_iff _ _).mp hordinary r hr
    omega
  have load := loadStructure_of_not_ordinary s a haddressable htranslate not_ordinary
  exact exec_of_loadStructure_error s _ hleaf hready load

end Sys2Proof.Machine
end

section
/-! PROOFS. The decoder reads exactly the encodings a mode has (O1, O2, O3). -/

namespace Sys2Proof

/-- What the decoder answers: the prefixes at the head of the bytes, and the opcode after them. -/
theorem decode_eq_ok_iff (long64 : Bool) (bytes rest : List Byte) (ps : List Prefix) (vex : Option VexForm) :
    decode long64 bytes = .ok (.pconfig ps vex, rest) ↔
      (decodePrefixes long64 bytes).1 = ps ∧
        decodeOpcode long64 (decodePrefixes long64 bytes).2 = some (vex, rest) := by
  cases bytes with
  | nil => simp [decode, decodePrefixes, decodeOpcode]
  | cons b bs =>
    cases hopcode : decodeOpcode long64 (decodePrefixes long64 (b :: bs)).2 <;>
      simp [decode, hopcode, and_assoc, Prod.ext_iff]

/-- Which rejection the decoder names: whether there is a byte at all (R86). -/
theorem decode_error (long64 : Bool) (bytes : List Byte) (e : Reject) (h : decode long64 bytes = .error e) :
    e = if bytes = [] then .noByte else .notPconfig := by
  cases bytes with
  | nil =>
    cases h
    rfl
  | cons b bs =>
    cases hopcode : decodeOpcode long64 (decodePrefixes long64 (b :: bs)).2 with
    | none =>
      rw [decode, hopcode] at h
      cases h
      rfl
    | some x => simp [decode, hopcode] at h

/-- Settles O2: the prefixes are read up to the opcode, whose first byte is none of them. -/
theorem decodeEncodeRoundTrip : Obligations.DecodeEncodeRoundTrip := by
  unfold Obligations.DecodeEncodeRoundTrip
  rintro long64 ⟨ps, vex⟩ rest hwf
  obtain ⟨hps, hvex⟩ : ps.all (prefixOk long64) = true ∧ vex.all (vexOk long64) = true := by
    simpa only [wellFormed, Bool.and_eq_true] using hwf
  obtain ⟨b, bs, hopcode, hb⟩ := prefixOfByte_opcode long64 vex rest
  have hprefixes : decodePrefixes long64 (encode (.pconfig ps vex) ++ rest) = (ps, encodeOpcode vex ++ rest) := by
    rw [encode, List.append_assoc, hopcode, decodePrefixes_append long64 ps b bs hps hb]
  rw [decode_eq_ok_iff, hprefixes]
  exact ⟨rfl, decodeOpcode_encodeOpcode long64 vex rest hvex⟩

/-- Settles O3: the prefixes read and the opcode read are together the bytes given. -/
theorem decodeReadsOnlyEncodings : Obligations.DecodeReadsOnlyEncodings := by
  unfold Obligations.DecodeReadsOnlyEncodings
  rintro long64 bytes rest ⟨ps, vex⟩ h
  obtain ⟨rfl, hopcode⟩ := (decode_eq_ok_iff ..).mp h
  obtain ⟨hbytes, hps⟩ := decodePrefixes_sound long64 bytes
  obtain ⟨hleft, hvex⟩ := decodeOpcode_sound long64 _ rest vex hopcode
  refine ⟨?_, by rw [wellFormed, hps, hvex, Bool.and_self]⟩
  rw [encode, List.append_assoc, ← hleft, hbytes]

/-- Settles O1: the bytes of the table are encodings, read back by the round trip; the neighbours are computed. -/
theorem tableBytesDecode : Obligations.TableBytesDecode := by
  unfold Obligations.TableBytesDecode
  have roundTrip := decodeEncodeRoundTrip
  exact ⟨fun long64 rest => roundTrip long64 (.pconfig [] none) rest rfl,
    roundTrip false (.pconfig [.operandSize] none) [] rfl,
    roundTrip false (.pconfig [.segment .cs, .rep] none) [] rfl,
    roundTrip true (.pconfig [.rex 8] none) [] rfl,
    by decide, by decide, by decide, by decide, by decide⟩

end Sys2Proof
end

section
/-! PROOFS. The step follows the decoder's rule (O5, O10), and the first stops of an instruction (O12, O16). -/

namespace Sys2Proof.Machine

/-! ## Prefixes and leaves -/

/-- The prefixes R72 lists. -/
theorem prefixListed_eq_true_iff (p : Prefix) :
    prefixListed p = true ↔ p = .lock ∨ p = .repne ∨ p = .rep ∨ p = .operandSize := by
  cases p <;> simp [prefixListed]

/-- Settles O12: the test for listed prefixes and VEX forms is the first of `execPconfig`. -/
theorem listedPrefixRaisesUd : Obligations.ListedPrefixRaisesUd := by
  unfold Obligations.ListedPrefixRaisesUd
  intro ps vex s h
  have hlisted : ps.any prefixListed = true ∨ vex.isSome = true := by
    simpa only [List.any_eq_true, prefixListed_eq_true_iff, Option.isSome_iff_ne_none] using h
  rw [exec, execPconfig, if_pos hlisted]
  rfl

/-- Settles O16: past the enumeration and privilege test, the gate checks test EAX. -/
theorem undefinedLeafRaisesGp : Obligations.UndefinedLeafRaisesGp := by
  unfold Obligations.UndefinedLeafRaisesGp
  rintro s ⟨⟨hmode, hinside⟩, henum, hcpl⟩ hleaf
  have heax : eax s.cpu ≠ 0 := mt (eax_eq_zero s.cpu).mp hleaf
  have gate : gateCheck s = some .gp := by
    rw [gateCheck, if_neg (by simp [henum, hcpl]), if_pos heax]
  rw [exec, execPconfig_bare s hmode hinside, gate]
  exact raise_gp s

/-! ## The decoder rule -/

/-- A step at the encoding of a well-formed instruction executes it and hands over, whatever bytes follow. -/
theorem step_of_fetch_encode (s : State) (i : Instr) (rest : List Byte)
    (hwf : wellFormed (wide s.cpu.mode) i = true) (hfetch : fetchBytes s = encode i ++ rest) :
    step s = mapNext handOver (exec i s) := by
  refine step_of_decode_ok s i rest ?_
  rw [hfetch]
  exact decodeEncodeRoundTrip _ i rest hwf

/-- The refusal of a rejected byte string says whether there was a byte. -/
theorem step_of_not_encoding (s : State) (hended : s.cpu.ended = false)
    (h : ∀ i rest, wellFormed (wide s.cpu.mode) i = true → fetchBytes s ≠ encode i ++ rest) :
    step s = .refused (if fetchBytes s = [] then .outsideProgram else .notPconfig) := by
  cases hdecode : decode (wide s.cpu.mode) (fetchBytes s) with
  | ok x =>
    obtain ⟨hbytes, hwf⟩ := decodeReadsOnlyEncodings _ _ x.2 x.1 hdecode
    exact absurd hbytes (h x.1 x.2 hwf)
  | error e =>
    rw [step_of_decode_error s e hended hdecode, decode_error _ _ e hdecode, apply_ite rejectRefusal]
    rfl

/-- Settles O5: an encoding is executed, where its prefixes decide the outcome; any other byte string is rejected. -/
theorem stepFollowsTheDecoderRule : Obligations.StepFollowsTheDecoderRule := by
  unfold Obligations.StepFollowsTheDecoderRule
  intro s
  refine ⟨fun rest hfetch => ?_, fun ps vex rest hwf hfetch hlisted => ?_,
    fun ps rest hwf hfetch hne hunlisted => ?_, fun hpc h => ?_⟩
  · exact step_of_fetch_encode s barePconfig rest rfl hfetch
  · rw [step_of_fetch_encode s _ rest hwf hfetch, listedPrefixRaisesUd ps vex s hlisted]
    rfl
  · have hrefused := exec_unlistedPrefix ps s (fun p hp => (prefixListed_eq_false_iff p).mpr (hunlisted p hp)) hne
    rw [step_of_fetch_encode s _ rest hwf hfetch, hrefused]
    rfl
  · exact step_of_not_encoding s (Bool.eq_false_iff.mpr (mt (Processor.ended_iff s.cpu).mp hpc)) h

/-! ## Stored text -/

/-- A store of text leaves the bytes below it. -/
theorem tableFind_storeText_of_lt (bs : List Byte) (t : Memory) (a b : Nat) (h : b < a) :
    tableFind (storeText t a bs) b = tableFind t b := by
  induction bs generalizing t a with
  | nil => rfl
  | cons v bs ih => rw [storeText, ih _ _ (by omega), tableFind_put, if_neg (by omega)]

/-- Stored text is read back from its address on. -/
theorem textRun_storeText (bs : List Byte) (t : Memory) (a : Nat) :
    textRun (storeText t a bs) a bs.length = bs := by
  induction bs generalizing t a with
  | nil => rfl
  | cons v bs ih =>
    have hfirst : tableFind (storeText t a (v :: bs)) a = some v := by
      rw [storeText, tableFind_storeText_of_lt _ _ _ _ (Nat.lt_succ_self a), tableFind_put, if_pos rfl]
    simp only [List.length_cons, textRun, hfirst]
    rw [storeText, ih]

/-- The fetch reads exactly the bytes of a stored table word: they are the whole program. -/
theorem fetchBytes_withFetchWord (s : State) (nbits w : Nat) :
    fetchBytes (s.withFetchWord nbits w) = tableBytes nbits w := by
  have hlength : (tableBytes nbits w).length = nbits / 8 := by simp [tableBytes]
  have hread := textRun_storeText (tableBytes nbits w) s.text s.cpu.pc.toNat
  simpa [fetchBytes, State.withFetchWord, Program.finish, hlength] using hread

/-- Settles O10: the bytes fetched are those of the table word, which are PCONFIG's. -/
theorem storedTableWordRuns : Obligations.StoredTableWordRuns := by
  unfold Obligations.StoredTableWordRuns
  intro s
  have hbytes : tableBytes 24 0x0F01C5 = encode barePconfig ++ [] := by decide
  exact step_of_fetch_encode _ barePconfig [] rfl ((fetchBytes_withFetchWord s 24 0x0F01C5).trans hbytes)

end Sys2Proof.Machine
end

section
/-! PROOFS. The gate checks that fail, the half of RAX they read (O14, O17, O18), and the cause of each failure reason
(O36). -/

namespace Sys2Proof.Machine

/-! ## The gate checks -/

/-- An exception of the gate checks is the outcome of the bare form, in a mode and a place with a meaning. -/
theorem exec_of_gateCheck_some (s : State) (e : Exn) (h : s.meaningful) (hgate : gateCheck s = some e) :
    exec barePconfig s = raise e s := by
  obtain ⟨hmode, hinside⟩ := h
  rw [exec, execPconfig_bare s hmode hinside, hgate]

/-- Settles O14: the first gate check tests enumeration and CPL, before EAX and everything else. -/
theorem notEnumeratedOrUnprivilegedRaisesUd : Obligations.NotEnumeratedOrUnprivilegedRaisesUd := by
  unfold Obligations.NotEnumeratedOrUnprivilegedRaisesUd
  intro s hs h
  have hfirst : s.config.pconfigEnum = false ∨ s.cpu.cpl ≠ 0 := h.imp_right Fin.pos_iff_ne_zero.mp
  exact exec_of_gateCheck_some s .ud hs (if_pos hfirst)

/-- Settles O18: past the tests of enumeration, CPL and EAX, the last gate check tests the target of leaf 0. -/
theorem unsupportedTargetRaisesGp : Obligations.UnsupportedTargetRaisesGp := by
  unfold Obligations.UnsupportedTargetRaisesGp
  rintro s ⟨hs, henum, hcpl⟩ hleaf htarget
  have heax : eax s.cpu = 0 := (eax_eq_zero s.cpu).mpr hleaf
  have gate : gateCheck s = some .gp := by
    rw [gateCheck, if_neg (by simp [henum, hcpl]), if_neg (not_not.mpr heax)]
    exact if_pos htarget
  rw [exec_of_gateCheck_some s .gp hs gate, raise_gp]

/-! ## The upper half of RAX -/

theorem eax_toNat (p : Processor) : (eax p).toNat = p.rax.toNat % 2 ^ 32 := by
  simp [eax]

/-- EAX is that of any RAX with the same low half (R21). -/
theorem eax_of_low_eq (p : Processor) (r : Word64) (hr : r.toNat % 2 ^ 32 = p.rax.toNat % 2 ^ 32) :
    eax { p with rax := r } = eax p := by
  rw [← BitVec.toNat_inj, eax_toNat, eax_toNat, hr]

/-- The gate checks read no other part of RAX than EAX. -/
theorem gateCheck_of_eax_eq (s : State) (r : Word64) (h : eax { s.cpu with rax := r } = eax s.cpu) :
    gateCheck { s with cpu := { s.cpu with rax := r } } = gateCheck s := by
  unfold gateCheck
  rw [h]

/-- Settles O17: RAX enters the checks through EAX alone, and a completion overwrites all of it. -/
theorem upperHalfOfRaxIgnored : Obligations.UpperHalfOfRaxIgnored := by
  unfold Obligations.UpperHalfOfRaxIgnored
  intro i s r hr
  have gate := gateCheck_of_eax_eq s r (eax_of_low_eq s.cpu r hr)
  rw [← mapNext_id (exec i s)]
  refine exec_eq_mapNext ?_ (fun _ => rfl) (fun _ _ => rfl) i
  exact ⟨rfl, rfl, rfl, gate, rfl, fun _ => rfl⟩

/-! ## The failure reasons -/

/-- EAX of a completion, as a number, is its result (R99). -/
theorem rax_low_of_completedAs (s t : State) (result : Word32) (h : s.completedAs t result) :
    t.cpu.rax.toNat % 2 ^ 32 = result.toNat := by
  obtain ⟨hrax, -⟩ := h
  rw [← eax_toNat, eax, hrax]

/-- A performed request leaves a non-zero value in EAX exactly where the platform turns it away for
that reason. -/
theorem performRequest_rax_low_iff (r : Request) (s : State) (reason : Word32) (h0 : reason ≠ 0) :
    (performRequest r s).cpu.rax.toNat % 2 ^ 32 = reason.toNat ↔
      platformVerdict s.config s.answer r = .error reason := by
  obtain ⟨x, hverdict, h⟩ | ⟨entry, hverdict, h⟩ := performRequest_cases r s
  · rw [h, rax_low_of_completedAs s _ x (completedAs_complete_drawn s x), BitVec.toNat_inj, hverdict,
      Except.error.injEq]
  · rw [h, rax_low_of_completedAs s _ 0 (completedAs_setKeyEntry_complete_drawn s _ _), BitVec.toNat_inj, hverdict]
    exact iff_of_false h0.symm nofun

/-- DEVICE_BUSY is the verdict exactly where the lock was not acquired (R122). -/
theorem platformVerdict_deviceBusy_iff (c : Config) (a : PlatformAnswer) (r : Request) :
    platformVerdict c a r = .error 5 ↔ a.lockOk = false := by
  constructor
  · intro h
    obtain ⟨-, ⟨-, hlock⟩ | ⟨-, h2, -⟩ | ⟨-, -, h5, -⟩⟩ := platformVerdict_error c a r 5 h
    · exact hlock
    · exact absurd h2 (by decide)
    · exact absurd rfl h5
  · intro hlock
    exact if_pos hlock

/-- ENTROPY_ERROR is the verdict only on command 1, with the lock acquired and too little entropy (R125). -/
theorem platformVerdict_entropyError (c : Config) (a : PlatformAnswer) (r : Request)
    (h : platformVerdict c a r = .error 2) :
    r.command = .setKeyRandom ∧ a.lockOk = true ∧ (a.entropyDataOk = false ∨ a.entropyTweakOk = false) := by
  obtain ⟨-, ⟨h5, -⟩ | ⟨hlock, -, hcommand, hentropy⟩ | ⟨-, h2, -⟩⟩ := platformVerdict_error c a r 2 h
  · exact absurd h5 (by decide)
  · exact ⟨hcommand, hlock, hentropy⟩
  · exact absurd rfl h2

/-- Any other reason is the verdict only where the platform answers it and the configuration lists it (R104). -/
theorem platformVerdict_otherReason (c : Config) (a : PlatformAnswer) (r : Request) (reason : Word32)
    (h : platformVerdict c a r = .error reason) (h2 : reason ≠ 2) (h5 : reason ≠ 5) :
    a.platformFailure = some reason ∧ reason ∈ c.extraFailureReasons := by
  obtain ⟨-, ⟨h5', -⟩ | ⟨-, h2', -⟩ | ⟨-, -, -, hfailure⟩⟩ := platformVerdict_error c a r reason h
  · exact absurd h5' h5
  · exact absurd h2' h2
  · exact hfailure

/-- Settles O36: EAX reports the platform's verdict on the structure's request, and each reason of a verdict has one
cause. -/
theorem failureReasonsHaveOneCause : Obligations.FailureReasonsHaveOneCause := by
  unfold Obligations.FailureReasonsHaveOneCause
  intro s t a k c i hreq hnext
  obtain ⟨command, rfl, hexec⟩ := exec_of_requirements_number s a k c i hreq
  obtain rfl := Host.Outcome.next.inj (hnext.symm.trans hexec)
  have reports := performRequest_rax_low_iff (s.requestAt a k command i) s
  refine ⟨fun hrax => ?_, ?_, fun r hrax h0 h2 h5 => ?_⟩
  · obtain ⟨hcommand, hcause⟩ := platformVerdict_entropyError _ _ _ ((reports 2 (by decide)).mp hrax)
    exact ⟨congrArg Command.number hcommand, hcause⟩
  · exact (reports 5 (by decide)).trans (platformVerdict_deviceBusy_iff _ _ _)
  · exact platformVerdict_otherReason _ _ _ r ((reports r h0).mp hrax) h2 h5

end Sys2Proof.Machine
end

section
/-! PROOFS. The four commands of leaf 0 once the requirements of R174 hold, and the failures reported for them
(O29 to O34). -/

namespace Sys2Proof.Machine

/-! ## The platform's verdict -/

/-- The entropy is the one thing a command can fail on, and command 1 alone asks for it (R125). -/
theorem commandEntry_error_iff (c : Config) (a : PlatformAnswer) (r : Request) (reason : Word32) :
    commandEntry c a r = .error reason ↔
      r.command = .setKeyRandom ∧ (a.entropyDataOk = false ∨ a.entropyTweakOk = false) ∧ reason = 2 := by
  unfold commandEntry
  cases r.command with
  | setKeyRandom => cases a.entropyDataOk <;> cases a.entropyTweakOk <;> simp [entropyError, eq_comm]
  | setKeyDirect | clearKey | noEncrypt => simp

/-- A platform that grants the request reports no failure of its own (R104, R5). -/
theorem platformFailure_of_granted (s : State) (h : s.granted) : platformFailure s.config s.answer = none := by
  obtain ⟨-, hreasons⟩ := h
  unfold platformFailure
  cases hanswer : s.answer.platformFailure with
  | none => rfl
  | some reason =>
    refine if_neg fun ⟨h0, h2, h5, hlisted⟩ => ?_
    obtain h | h | h | h := hreasons reason (by simp [hanswer])
    · exact h0 h
    · exact h2 h
    · exact h5 h
    · exact h hlisted

/-- Where the platform grants the request, the verdict is the command's own. -/
theorem platformVerdict_of_granted (s : State) (r : Request) (h : s.granted) :
    platformVerdict s.config s.answer r = commandEntry s.config s.answer r := by
  rw [platformVerdict, platformFailure_of_granted s h, if_neg (by simp [h.left])]

/-! ## The two ways to complete -/

/-- A request whose entry is granted is performed by writing it. -/
theorem performRequest_of_ok (r : Request) (s : State) (entry : KeyEntry)
    (h : platformVerdict s.config s.answer r = .ok entry) :
    performRequest r s = ((s.setKeyEntry r.keyId entry).complete 0).drawn := by
  rw [performRequest, h]

/-- Success: with the requirements met and the request granted, the command's entry is programmed for KeyID `k`. -/
theorem exec_programs_entry (s : State) (a k : Nat) (command : Command) (i : Fin 16) (entry : KeyEntry)
    (hreq : s.requirements a k command.number i) (hgranted : s.granted)
    (hentry : commandEntry s.config s.answer (s.requestAt a k command i) = .ok entry) :
    ∃ t, exec barePconfig s = .next t ∧ s.completedAs t 0 ∧ s.keyUpdated t k entry := by
  have performed := performRequest_of_ok _ _ _ ((platformVerdict_of_granted s _ hgranted).trans hentry)
  refine ⟨_, exec_of_requirements s a k command i hreq, ?_⟩
  rw [performed]
  exact ⟨completedAs_setKeyEntry_complete_drawn s k entry, fun j => keyEntry_setKeyEntry s k j entry⟩

/-- Failure: with the requirements met and the request turned away, the reason is reported and the key table kept. -/
theorem exec_reports_reason (s : State) (a k : Nat) (command : Command) (i : Fin 16) (reason : Word32)
    (hreq : s.requirements a k command.number i)
    (hverdict : platformVerdict s.config s.answer (s.requestAt a k command i) = .error reason) :
    ∃ t, exec barePconfig s = .next t ∧ s.completedAs t reason ∧ t.keyTable = s.keyTable := by
  refine ⟨_, exec_of_requirements s a k command i hreq, ?_⟩
  rw [performRequest_of_error _ _ _ hverdict]
  exact ⟨completedAs_complete_drawn s reason, rfl⟩

/-! ## The keys of command 1 -/

/-- A byte of an exclusive OR of byte strings, where both have one. -/
theorem xorBytes_getD (x y : List Byte) (j : Nat) (hx : j < x.length) (hy : j < y.length) :
    (xorBytes x y).getD j 0 = x.getD j 0 ^^^ y.getD j 0 := by
  simp [xorBytes, List.getD, hx, hy]

/-- A random key combined with a key field in memory (R124): as long as the field, and byte by byte the exclusive OR. -/
theorem randomKey_spec (rnd : Vector Byte 64) (m : Memory) (a n : Nat) (hn : n ≤ 64) :
    (xorBytes (rnd.toList.take n) (readBytes m a n)).length = n ∧
      ∀ j < n, (xorBytes (rnd.toList.take n) (readBytes m a n)).getD j 0 =
        rnd.toList.getD j 0 ^^^ readByte m (a + j) := by
  refine ⟨by simp [xorBytes, hn], fun j hj => ?_⟩
  have taken : (rnd.toList.take n).getD j 0 = rnd.toList.getD j 0 := by simp [List.getD, hj]
  rw [xorBytes_getD _ _ _ (by simp; omega) (by simpa using hj), taken, readBytes_getD _ _ _ _ _ hj]

/-! ## The commands -/

/-- Settles O29: the entry of command 0 is the key fields as they stand in the structure. -/
theorem setKeyDirectCompletes : Obligations.SetKeyDirectCompletes := by
  unfold Obligations.SetKeyDirectCompletes
  intro s a k i hreq hgranted
  exact exec_programs_entry s a k .setKeyDirect i _ hreq hgranted rfl

/-- Settles O30: with entropy for both keys, the entry of command 1 is the random keys combined with the fields. -/
theorem setKeyRandomCompletes : Obligations.SetKeyRandomCompletes := by
  unfold Obligations.SetKeyRandomCompletes
  intro s a k i hreq hgranted hdata htweak
  have entry : commandEntry s.config s.answer (s.requestAt a k .setKeyRandom i) =
      .ok (.encrypt i
        (xorBytes (s.answer.rndData.toList.take (keyBytes s.config i)) (readBytes s.mem (a + 64) (keyBytes s.config i)))
        (xorBytes (s.answer.rndTweak.toList.take (keyBytes s.config i))
          (readBytes s.mem (a + 128) (keyBytes s.config i)))) := by
    simp [commandEntry, State.requestAt, hdata, htweak]
  obtain ⟨t, hexec, hcompleted, hupdated⟩ := exec_programs_entry s a k .setKeyRandom i _ hreq hgranted entry
  obtain ⟨dataLength, dataByte⟩ := randomKey_spec s.answer.rndData s.mem (a + 64) _ (keyBytes_le s.config i)
  obtain ⟨tweakLength, tweakByte⟩ := randomKey_spec s.answer.rndTweak s.mem (a + 128) _ (keyBytes_le s.config i)
  exact ⟨t, _, _, hexec, hcompleted, hupdated, dataLength, tweakLength, fun j hj => ⟨dataByte j hj, tweakByte j hj⟩⟩

/-- Settles O31: the entry of command 2 is `TmeDefault`. -/
theorem clearKeyCompletes : Obligations.ClearKeyCompletes := by
  unfold Obligations.ClearKeyCompletes
  intro s a k i hreq hgranted
  exact exec_programs_entry s a k .clearKey i _ hreq hgranted rfl

/-- Settles O32: the entry of command 3 is `NoEncrypt`. -/
theorem noEncryptCompletes : Obligations.NoEncryptCompletes := by
  unfold Obligations.NoEncryptCompletes
  intro s a k i hreq hgranted
  exact exec_programs_entry s a k .noEncrypt i _ hreq hgranted rfl

/-! ## The named failures -/

/-- Settles O33: a lock that is not acquired is the verdict on every command. -/
theorem deviceBusyReported : Obligations.DeviceBusyReported := by
  unfold Obligations.DeviceBusyReported
  intro s a k c i hreq hlock
  have ⟨_, _, ⟨_, hcommand⟩, _⟩ := hreq
  obtain ⟨command, rfl⟩ := Command.exists_number_eq c hcommand
  exact exec_reports_reason s a k command i 5 hreq ((platformVerdict_deviceBusy_iff _ _ _).mpr hlock)

/-- Settles O34: a granted command 1 fails on the entropy of either key. -/
theorem entropyErrorReported : Obligations.EntropyErrorReported := by
  unfold Obligations.EntropyErrorReported
  intro s a k i hreq hgranted hentropy
  have verdict : platformVerdict s.config s.answer (s.requestAt a k .setKeyRandom i) = .error 2 :=
    (platformVerdict_of_granted s _ hgranted).trans ((commandEntry_error_iff _ _ _ _).mpr ⟨rfl, hentropy, rfl⟩)
  exact exec_reports_reason s a k .setKeyRandom i 2 hreq verdict

end Sys2Proof.Machine
end

section
/-! PROOFS. The activation check and the four checks of the structure's content (O19, O24 to O27). -/

namespace Sys2Proof.Machine

/-! ## The activation check -/

/-- Leaf 0 stops at its first check where TME-MK is not activated: nothing is loaded. -/
theorem keyProgramChecks_of_not_ready (s : State) (h : ¬ s.tmeReady) :
    keyProgramChecks s = .error (.exception .gp) :=
  if_pos (Bool.eq_false_iff.mpr fun hactivated => h ((tmeActivated_iff s).mp hactivated))

/-- Settles O19: the first check of leaf 0 tests the activation. -/
theorem notActivatedRaisesGp : Obligations.NotActivatedRaisesGp := by
  unfold Obligations.NotActivatedRaisesGp
  intro s hleaf h
  have not_ready : ¬ s.tmeReady := by
    rintro ⟨hlocked, henabled, hbits⟩
    rw [← keyIdBits_eq, keyIdBits] at hbits
    rcases h with h | h | h
    · exact absurd hlocked (Bool.eq_false_iff.mp h)
    · exact absurd henabled (Bool.eq_false_iff.mp h)
    · simp [h] at hbits
  rw [exec_of_leafSelected s hleaf, mktmeKeyProgram, keyProgramChecks_of_not_ready s not_ready]
  exact raise_gp s

/-! ## From the load to the content checks -/

/-- Past the activation and the load, the checks of leaf 0 are those of the structure's content. -/
theorem keyProgramChecks_of_operandAt (s : State) (a : Nat) (hready : s.tmeReady) (ha : s.operandAt a) :
    keyProgramChecks s = checkStructure s (readBytes s.mem a 192) := by
  have activated : tmeActivated s.cpu.tmeActivate = true := (tmeActivated_iff s).mpr hready
  have loaded : loadStructure s = .ok (readBytes s.mem a 192) := (loadStructure_iff s _).mpr ⟨a, ha, rfl⟩
  simp [keyProgramChecks, activated, loaded]

/-- The content checks answer a request or `#GP`, whichever of the four fails (R116 to R119). -/
theorem checkStructure_gp_or_ok (s : State) (S : List Byte) :
    checkStructure s S = .error (.exception .gp) ∨ ∃ r, checkStructure s S = .ok r := by
  unfold checkStructure
  split
  · exact Or.inl rfl
  split
  · exact Or.inl rfl
  split
  · exact Or.inl rfl
  split
  · exact Or.inl rfl
  · exact Or.inr ⟨_, rfl⟩

/-- With the structure loaded, content that passes no request raises `#GP`. -/
theorem exec_of_checkStructure_not_ok (s : State) (a : Nat) (hloads : s.loadsAt a)
    (h : ∀ r, checkStructure s (readBytes s.mem a 192) ≠ .ok r) :
    exec barePconfig s = .fault (.generalProtection (if s.cpu.mode = .real then none else some 0)) := by
  obtain ⟨hleaf, hready, ha⟩ := hloads
  have content_fails : checkStructure s (readBytes s.mem a 192) = .error (.exception .gp) :=
    (checkStructure_gp_or_ok s _).resolve_right (not_exists.mpr h)
  rw [exec_of_leafSelected s hleaf, mktmeKeyProgram, keyProgramChecks_of_operandAt s a hready ha, content_fails]
  exact raise_gp s

/-- With the structure loaded, a completion means that the content passed as a request. -/
theorem checkStructure_ok_of_exec_next (s t : State) (a : Nat) (hloads : s.loadsAt a)
    (h : exec barePconfig s = .next t) : ∃ r, checkStructure s (readBytes s.mem a 192) = .ok r := by
  obtain ⟨-, -, r, hchecks, -⟩ := exec_next barePconfig s t h
  obtain ⟨-, hready, ha⟩ := hloads
  exact ⟨r, (keyProgramChecks_of_operandAt s a hready ha).symm.trans hchecks⟩

/-- With rows 1 to 13 of R174 met, the bare form completes. -/
theorem exec_completes_of_requirements (s : State) (a k c : Nat) (i : Fin 16) (h : s.requirements a k c i) :
    ∃ t, exec barePconfig s = .next t := by
  obtain ⟨command, -, hexec⟩ := exec_of_requirements_number s a k c i h
  exact ⟨_, hexec⟩

/-! ## What content that passes is like -/

/-- RSVD of content that passes is 0 (R116). -/
theorem structNumber_five_of_checkStructure_ok (s : State) (a : Nat) (r : Request)
    (h : checkStructure s (readBytes s.mem a 192) = .ok r) : s.structNumber a 5 = 0 := by
  obtain ⟨hreserved, -⟩ := checkStructure_ok s _ r h
  rw [reservedField_eq, structByte_readBytes _ _ _ (by decide)] at hreserved
  exact congrArg BitVec.toNat hreserved

/-- COMMAND of content that passes is at most 3 (R117). -/
theorem commandField_le_of_checkStructure_ok (s : State) (S : List Byte) (r : Request)
    (h : checkStructure s S = .ok r) : (commandField S).toNat ≤ 3 := by
  obtain ⟨-, hcommand, -⟩ := checkStructure_ok s S r h
  by_contra habove
  rw [(commandOf_none _).mpr (Nat.lt_of_not_le habove)] at hcommand
  cases hcommand

/-- KEYID of content that passes is in the range of R118. -/
theorem keyIdField_range_of_checkStructure_ok (s : State) (S : List Byte) (r : Request)
    (h : checkStructure s S = .ok r) :
    1 ≤ (keyIdField S).toNat ∧ (keyIdField S).toNat ≤ 2 ^ s.cpu.keyIdBitsNumber - 1 ∧
      (keyIdField S).toNat ≤ s.config.tmeCapability.toNat / 2 ^ 36 % 2 ^ 15 := by
  obtain ⟨-, -, hkeyId, -⟩ := checkStructure_ok s S r h
  exact (keyIdOk_iff s _).mp hkeyId

/-- ENC_ALG of content that passes is one single bit, and an activated one (R119). -/
theorem algField_of_checkStructure_ok (s : State) (S : List Byte) (r : Request) (h : checkStructure s S = .ok r) :
    algField S = BitVec.twoPow 16 r.alg.val ∧ algField S &&& s.cpu.tmeActivate.extractLsb' 48 16 ≠ 0 := by
  obtain ⟨-, -, -, halg, -⟩ := checkStructure_ok s S r h
  obtain ⟨hvalue, hactive⟩ := (selectedAlg_iff _ _ _).mp halg
  have single := (eq_twoPow_iff _ _).mpr hvalue
  refine ⟨single, fun hnone => ?_⟩
  rw [single, and_twoPow_eq_zero] at hnone
  rw [activatedAlgs, hnone] at hactive
  cases hactive

/-! ## The four checks -/

/-- Settles O24: content that passes has RSVD 0. -/
theorem reservedBitsRaiseGp : Obligations.ReservedBitsRaiseGp := by
  unfold Obligations.ReservedBitsRaiseGp
  intro s a hloads
  refine ⟨fun hreserved => ?_, fun k c i hcontent => exec_completes_of_requirements s a k c i ⟨hloads, hcontent⟩⟩
  exact exec_of_checkStructure_not_ok s a hloads fun r hr =>
    hreserved (structNumber_five_of_checkStructure_ok s a r hr)

/-- Settles O25: content that passes has a COMMAND of at most 3. -/
theorem commandCheck : Obligations.CommandCheck := by
  unfold Obligations.CommandCheck
  refine ⟨fun s a hloads habove => ?_, exec_completes_of_requirements⟩
  exact exec_of_checkStructure_not_ok s a hloads fun r hr =>
    Nat.not_lt.mpr (commandField_le_of_checkStructure_ok s _ r hr) habove

/-- Settles O26: content that passes, and so every completion, has a KEYID in range. -/
theorem keyIdCheck : Obligations.KeyIdCheck := by
  unfold Obligations.KeyIdCheck
  intro s a hloads
  refine ⟨fun hout => ?_, fun t hnext => ?_, fun k c i hcontent =>
    exec_completes_of_requirements s a k c i ⟨hloads, hcontent⟩⟩
  · refine exec_of_checkStructure_not_ok s a hloads fun r hr => ?_
    obtain ⟨hone, hbits, hmax⟩ := keyIdField_range_of_checkStructure_ok s _ r hr
    omega
  · obtain ⟨r, hr⟩ := checkStructure_ok_of_exec_next s t a hloads hnext
    obtain ⟨hone, hbits, hmax⟩ := keyIdField_range_of_checkStructure_ok s _ r hr
    exact ⟨hone, le_min hbits hmax⟩

/-- Settles O27: content that passes has one activated bit in ENC_ALG, and command 0 programs its index. -/
theorem algorithmCheck : Obligations.AlgorithmCheck := by
  unfold Obligations.AlgorithmCheck
  intro s a hloads
  refine ⟨fun hbad => ?_, fun k c i hcontent => exec_completes_of_requirements s a k c i ⟨hloads, hcontent⟩,
    fun k i hcontent hgranted => ?_⟩
  · refine exec_of_checkStructure_not_ok s a hloads fun r hr => ?_
    obtain ⟨hsingle, hactive⟩ := algField_of_checkStructure_ok s _ r hr
    exact hbad.elim (fun hnot => hnot ⟨r.alg, hsingle⟩) hactive
  · obtain ⟨t, hexec, -, hupdated⟩ := setKeyDirectCompletes s a k i ⟨hloads, hcontent⟩ hgranted
    exact ⟨t, _, _, hexec, (hupdated k).trans (if_pos rfl)⟩

end Sys2Proof.Machine
end

section
/-! PROOFS. What the random keys and the ignored bytes of the structure do not reach (O41, O45). -/

namespace Sys2Proof.Machine

/-! ## The random keys -/

/-- The reason of a verdict does not depend on the random keys (R124, R125). -/
theorem platformVerdict_error_withKeys (c : Config) (a : PlatformAnswer) (r : Request) (data tweak : Vector Byte 64)
    (reason : Word32) :
    platformVerdict c { a with rndData := data, rndTweak := tweak } r = .error reason ↔
      platformVerdict c a r = .error reason := by
  have failure : platformFailure c { a with rndData := data, rndTweak := tweak } = platformFailure c a := rfl
  unfold platformVerdict
  rw [failure]
  split
  · exact Iff.rfl
  · cases platformFailure c a with
    | some own => exact Iff.rfl
    | none => simp only [commandEntry_error_iff]

/-- No check asks the platform: whichever answers are queued, an instruction ends in one outcome or performs one request. -/
theorem exec_withAnswers (i : Instr) (s : State) (xs ys : List PlatformAnswer) :
    exec i { s with answers := xs } = exec i { s with answers := ys } ∨
      ∃ r, exec i { s with answers := xs } = .next (performRequest r { s with answers := xs }) ∧
        exec i { s with answers := ys } = .next (performRequest r { s with answers := ys }) := by
  have gate : ∀ l, gateCheck { s with answers := l } = gateCheck s := fun _ => rfl
  have request : ∀ l, keyProgramChecks { s with answers := l } = keyProgramChecks s := fun _ => rfl
  cases i with
  | pconfig ps vex =>
    simp only [exec, execPconfig, gate, mktmeKeyProgram, request]
    split
    · exact Or.inl rfl
    split
    · exact Or.inl rfl
    split
    · exact Or.inl rfl
    split
    · exact Or.inl rfl
    cases gateCheck s with
    | some e => exact Or.inl rfl
    | none =>
      cases keyProgramChecks s with
      | error x => cases x <;> exact Or.inl rfl
      | ok r => exact Or.inr ⟨r, rfl, rfl⟩

/-- A request performed with other random keys leaves the same state, but for the key table. -/
theorem performRequest_withKeys (r : Request) (s : State) (a : PlatformAnswer) (rest : List PlatformAnswer)
    (data tweak : Vector Byte 64) :
    { performRequest r { s with answers := { a with rndData := data, rndTweak := tweak } :: rest } with
        keyTable := [] } =
      { performRequest r { s with answers := a :: rest } with keyTable := [] } := by
  have same_reason := platformVerdict_error_withKeys s.config a r data tweak
  obtain ⟨reason, hverdict, h⟩ | ⟨entry, hverdict, h⟩ := performRequest_cases r { s with answers := a :: rest }
  · rw [h, performRequest_of_error r _ reason ((same_reason reason).mpr hverdict)]
    rfl
  · obtain ⟨reason, hverdict', -⟩ | ⟨entry', -, h'⟩ := performRequest_cases r
      { s with answers := { a with rndData := data, rndTweak := tweak } :: rest }
    · have := hverdict.symm.trans ((same_reason reason).mp hverdict')
      cases this
    · rw [h, h']
      rfl

/-- Settles O41: the random keys enter the verdict in the entry alone, and the entry reaches only the key table. -/
theorem randomKeysReachOnlyTheKeyTable : Obligations.RandomKeysReachOnlyTheKeyTable := by
  unfold Obligations.RandomKeysReachOnlyTheKeyTable
  intro i s x y rest hlock hdata htweak hfailure
  obtain ⟨data, tweak, rfl⟩ : ∃ data tweak, x = { y with rndData := data, rndTweak := tweak } := by
    refine ⟨x.rndData, x.rndTweak, ?_⟩
    rw [← hlock, ← hdata, ← htweak, ← hfailure]
  obtain h | ⟨r, hx, hy⟩ := exec_withAnswers i s (_ :: rest) (y :: rest)
  · rw [h]
  · rw [hx, hy]
    exact congrArg Host.Outcome.next (performRequest_withKeys r s y rest _ _)

/-! ## The ignored bytes -/

/-- Reads of memories that agree on the bytes read are equal. -/
theorem readBytes_congr (m n : Memory) (a k : Nat) (h : ∀ o < k, readByte n (a + o) = readByte m (a + o)) :
    readBytes n a k = readBytes m a k :=
  List.map_congr_left fun o ho => h o (List.mem_range.mp ho)

/-- Content is read from bytes 0 to 5 of the structure alone (R56). -/
theorem contentAt_withMem (s : State) (m : Memory) (a k c : Nat) (i : Fin 16)
    (hfields : ∀ o < 6, readByte m (a + o) = readByte s.mem (a + o)) (h : s.contentAt a k c i) :
    State.contentAt { s with mem := m } a k c i := by
  have same : ∀ o < 6, State.structNumber { s with mem := m } a o = s.structNumber a o := fun o ho =>
    congrArg BitVec.toNat (hfields o ho)
  unfold State.contentAt
  rw [same 0 (by decide), same 1 (by decide), same 2 (by decide), same 3 (by decide), same 4 (by decide),
    same 5 (by decide)]
  exact h

/-- With the requirements of R174 met, the checks answer what the structure asks for. -/
theorem keyProgramChecks_of_requirements (s : State) (a k : Nat) (command : Command) (i : Fin 16)
    (h : s.requirements a k command.number i) : keyProgramChecks s = .ok (s.requestAt a k command i) := by
  obtain ⟨⟨-, hready, ha⟩, hcontent⟩ := h
  rw [keyProgramChecks_of_operandAt s a hready ha, checkStructure_of_contentAt s a k command i hcontent]

/-- Settles O45: the checks read bytes 0 to 5, the request takes the KeyBytes bytes of the two key fields, and nothing
else reads memory. -/
theorem ignoredBytesHaveNoEffect : Obligations.IgnoredBytesHaveNoEffect := by
  unfold Obligations.IgnoredBytesHaveNoEffect
  intro s m a k c i hreq hagree
  have ⟨hloads, hcontent⟩ := hreq
  have ⟨_, ⟨_, hcommand⟩, _⟩ := hcontent
  obtain ⟨command, rfl⟩ := Command.exists_number_eq c hcommand
  have dataField := readBytes_congr s.mem m (a + 64) (keyBytes s.config i) fun o ho => by
    rw [Nat.add_assoc]
    exact hagree (64 + o) (by omega)
  have tweakField := readBytes_congr s.mem m (a + 128) (keyBytes s.config i) fun o ho => by
    rw [Nat.add_assoc]
    exact hagree (128 + o) (by omega)
  have content := contentAt_withMem s m a k _ i (fun o ho => hagree o (Or.inl ho)) hcontent
  have request : keyProgramChecks { s with mem := m } = keyProgramChecks s := by
    rw [keyProgramChecks_of_requirements s a k command i hreq,
      keyProgramChecks_of_requirements { s with mem := m } a k command i ⟨hloads, content⟩]
    simp only [State.requestAt, dataField, tweakField]
  refine exec_eq_mapNext ?_ (fun _ => rfl) (fun _ _ => rfl) barePconfig
  exact ⟨rfl, rfl, rfl, rfl, request, fun _ => rfl⟩

end Sys2Proof.Machine
end

section
/-! PROOFS. The exceptions PCONFIG raises, in every mode (O28), and the one of virtual-8086 mode (O15). -/

namespace Sys2Proof.Machine

/-! ## Virtual-8086 mode -/

/-- A virtual-8086 processor is at CPL 3 (D26). -/
theorem cpl_eq_three_of_v86 (c : Config) (p : Processor) (hok : modeOk c p = true) (hmode : p.mode = .v86) :
    p.cpl = 3 := by
  simpa [modeOk, hmode] using hok

/-- Past the gate checks a processor is at CPL 0, so it is not in virtual-8086 mode (R147, D26). -/
theorem mode_ne_v86_of_gateCheck_none (s : State) (hs : s.meaningful) (hgate : gateCheck s = none) :
    s.cpu.mode ≠ .v86 := by
  intro hmode
  have at_three : s.cpu.cpl = 3 := cpl_eq_three_of_v86 s.config s.cpu hs.left hmode
  obtain ⟨-, at_zero, -⟩ := (gateCheck_eq_none_iff s).mp hgate
  exact absurd (at_three.symm.trans at_zero) (by decide)

/-- Settles O15: virtual-8086 mode has CPL 3, and there the first gate check raises `#UD` (R91). -/
theorem virtualModeRaisesUd : Obligations.VirtualModeRaisesUd := by
  unfold Obligations.VirtualModeRaisesUd
  intro s hs hmode
  have unprivileged : 0 < s.cpu.cpl.val := by
    rw [cpl_eq_three_of_v86 s.config s.cpu hs.left hmode]
    decide
  exact notEnumeratedOrUnprivilegedRaisesUd s hs (Or.inr unprivileged)

/-! ## The exceptions of every form -/

/-- The gate checks raise `#UD` or `#GP` (R91 to R93). -/
theorem gateCheck_some (s : State) (e : Exn) (h : gateCheck s = some e) : e = .ud ∨ e = .gp := by
  unfold gateCheck at h
  split_ifs at h
  · exact Or.inl (Option.some.inj h).symm
  · exact Or.inr (Option.some.inj h).symm
  · exact Or.inr (Option.some.inj h).symm

/-- An instruction faults at a listed prefix; or, in a mode and a place with a meaning, at a gate check; or past the gate
checks at a check of leaf 0. -/
theorem exec_fault (i : Instr) (s : State) (f : Fault) (h : exec i s = .fault f) :
    f = .invalidOpcode ∨
      (s.meaningful ∧ ∃ e, gateCheck s = some e ∧ f = exnFault s.cpu.mode e) ∨
      (s.meaningful ∧ gateCheck s = none ∧
        ∃ e, keyProgramChecks s = .error (.exception e) ∧ f = exnFault s.cpu.mode e) := by
  cases i with
  | pconfig ps vex =>
    change execPconfig ps vex s = .fault f at h
    unfold execPconfig at h
    split_ifs at h with hlisted hprefixes hmode hinside
    · exact Or.inl (Host.Outcome.fault.inj h).symm
    · have meaningful : s.meaningful := ⟨Bool.eq_true_of_not_eq_false hmode, Bool.eq_true_of_not_eq_false hinside⟩
      cases hgate : gateCheck s with
      | some e =>
        rw [hgate] at h
        exact Or.inr (Or.inl ⟨meaningful, e, rfl, (Host.Outcome.fault.inj h).symm⟩)
      | none =>
        rw [hgate] at h
        exact Or.inr (Or.inr ⟨meaningful, rfl, mktmeKeyProgram_fault s f h⟩)

/-- What `#GP` records: error code 0, and in real-address mode none (R140, R146). -/
theorem exnFault_gp (s : State) :
    exnFault s.cpu.mode .gp = .generalProtection (if s.cpu.mode = .real then none else some 0) :=
  Host.Outcome.fault.inj (raise_gp s)

/-- The modes that have paging and pass the gate checks (R160). -/
theorem mode_of_ne_real_of_ne_v86 (m : Mode) (hreal : m ≠ .real) (hv86 : m ≠ .v86) :
    m = .protected32 ∨ m = .compat ∨ m = .long64 := by
  cases m with
  | real => exact absurd rfl hreal
  | protected32 => exact Or.inl rfl
  | v86 => exact absurd rfl hv86
  | compat => exact Or.inr (Or.inl rfl)
  | long64 => exact Or.inr (Or.inr rfl)

/-- Settles O28: the prefixes and the gate checks raise `#UD` and `#GP`, the checks of leaf 0 `#GP` and `#PF`, and leaf 0 is
reached in no virtual-8086 mode. -/
theorem onlyThreeExceptions : Obligations.OnlyThreeExceptions := by
  unfold Obligations.OnlyThreeExceptions
  intro i s f h
  obtain rfl | ⟨-, e, hgate, rfl⟩ | ⟨meaningful, hgate, e, hchecks, rfl⟩ := exec_fault i s f h
  · exact Or.inl rfl
  · obtain rfl | rfl := gateCheck_some s e hgate
    · exact Or.inl rfl
    · exact Or.inr (Or.inl (exnFault_gp s))
  · obtain rfl | ⟨code, address, rfl, not_real⟩ := keyProgramChecks_exception s e hchecks
    · exact Or.inr (Or.inl (exnFault_gp s))
    · have not_v86 := mode_ne_v86_of_gateCheck_none s meaningful hgate
      exact Or.inr (Or.inr ⟨code, address, rfl, mode_of_ne_real_of_ne_v86 _ not_real not_v86⟩)

end Sys2Proof.Machine
end

section
/-! PROOFS. Where PCONFIG completes (O37), and what executing it again after a reported failure does (O39). -/

namespace Sys2Proof.Machine

/-- An instruction that answers a next state found rows 1 to 5 of R174 met. -/
theorem leafSelected_of_exec_next (i : Instr) (s t : State) (h : exec i s = .next t) : s.leafSelected := by
  cases i with
  | pconfig ps vex =>
    obtain ⟨-, -, hmode, hinside, hgate, -⟩ := execPconfig_next ps vex s t h
    obtain ⟨henum, hcpl, hleaf, htarget⟩ := (gateCheck_eq_none_iff s).mp hgate
    exact ⟨⟨⟨hmode, hinside⟩, henum, hcpl⟩, hleaf, htarget⟩

/-- KEYID of a structure read from memory is its bytes 0 and 1 (R55, R56). -/
theorem keyIdField_readBytes_toNat (s : State) (a : Nat) :
    (keyIdField (readBytes s.mem a 192)).toNat = s.structNumber a 0 + 256 * s.structNumber a 1 := by
  rw [keyIdField, le16_toNat, structByte_readBytes _ _ _ (by decide), structByte_readBytes _ _ _ (by decide)]

/-- COMMAND of a structure read from memory is its byte 2 (R56). -/
theorem commandField_readBytes_toNat (s : State) (a : Nat) :
    (commandField (readBytes s.mem a 192)).toNat = s.structNumber a 2 := by
  rw [commandField_eq, structByte_readBytes _ _ _ (by decide)]

/-- ENC_ALG of a structure read from memory is its bytes 3 and 4 (R55, R56). -/
theorem algField_readBytes_toNat (s : State) (a : Nat) :
    (algField (readBytes s.mem a 192)).toNat = s.structNumber a 3 + 256 * s.structNumber a 4 := by
  rw [algField_toNat, structByte_readBytes _ _ _ (by decide), structByte_readBytes _ _ _ (by decide)]

/-- Content that passes as a request meets rows 10 to 13 of R174 for the request's KeyID, command and algorithm. -/
theorem contentAt_of_checkStructure_ok (s : State) (a : Nat) (r : Request)
    (h : checkStructure s (readBytes s.mem a 192) = .ok r) : s.contentAt a r.keyId r.command.number r.alg := by
  have reserved_zero := structNumber_five_of_checkStructure_ok s a r h
  have command_le := commandField_le_of_checkStructure_ok s _ r h
  have keyId_range := keyIdField_range_of_checkStructure_ok s _ r h
  obtain ⟨-, hcommand, -, halg, hkeyId, -⟩ := checkStructure_ok s _ r h
  have command_value := (commandOf_eq_some_iff _ _).mp hcommand
  obtain ⟨alg_value, alg_active⟩ := (selectedAlg_iff _ _ _).mp halg
  rw [command_value] at command_le
  rw [← hkeyId] at keyId_range
  rw [commandField_readBytes_toNat] at command_value
  rw [keyIdField_readBytes_toNat] at hkeyId
  rw [algField_readBytes_toNat] at alg_value
  have alg_bit : s.cpu.tmeActivate.getLsbD (48 + r.alg.val) = true := by simpa [activatedAlgs] using alg_active
  exact ⟨reserved_zero, ⟨command_value, command_le⟩, ⟨hkeyId.symm, keyId_range⟩, alg_value, alg_bit⟩

/-- An instruction that answers a next state found rows 1 to 13 of R174 met, for some structure. -/
theorem requirements_of_exec_next (i : Instr) (s t : State) (h : exec i s = .next t) :
    ∃ a k c j, s.requirements a k c j := by
  have hleaf := leafSelected_of_exec_next i s t h
  obtain ⟨-, -, r, hchecks, -⟩ := exec_next i s t h
  obtain ⟨hactivated, S, hload, hcontent⟩ := keyProgramChecks_ok s r hchecks
  obtain ⟨a, ha, rfl⟩ := (loadStructure_iff s S).mp hload
  exact ⟨a, _, _, _, ⟨hleaf, (tmeActivated_iff s).mp hactivated, ha⟩, contentAt_of_checkStructure_ok s a r hcontent⟩

/-- Settles O37: every check of a completion is a row of R174, and the rows together pass every check. -/
theorem completesExactlyWhereRequirementsHold : Obligations.CompletesExactlyWhereRequirementsHold := by
  unfold Obligations.CompletesExactlyWhereRequirementsHold
  intro s
  constructor
  · rintro ⟨t, h⟩
    exact requirements_of_exec_next barePconfig s t h
  · rintro ⟨a, k, c, i, h⟩
    exact exec_completes_of_requirements s a k c i h

/-- A completion keeps what rows 2 and 3 of R174 ask for; the place after it is the caller's (R25). -/
theorem permitted_of_completedAs (s t : State) (result : Word32) (h : s.completedAs t result) (hs : s.permitted)
    (ht : t.meaningful) : t.permitted := by
  obtain ⟨-, -, hcpu, hrest⟩ := h
  obtain ⟨-, henum, hcpl⟩ := hs
  have config_eq : t.config = s.config := by rw [hrest]
  have cpl_eq : t.cpu.cpl = s.cpu.cpl := by rw [hcpu]
  exact ⟨ht, config_eq ▸ henum, cpl_eq.trans hcpl⟩

/-- ZF after a completion says whether EAX holds a failure reason (R96, R97). -/
theorem rax_low_ne_zero_of_completedAs_zf (s t : State) (result : Word32) (h : s.completedAs t result)
    (hzf : t.cpu.flags.zf = true) : t.cpu.rax.toNat % 2 ^ 32 ≠ 0 := by
  have ⟨_, _, hcpu, _⟩ := h
  rw [hcpu, decide_eq_true_iff] at hzf
  rw [rax_low_of_completedAs s t result h]
  exact fun hzero => hzf (BitVec.eq_of_toNat_eq hzero)

/-- Settles O39: a reported failure leaves its reason in EAX, where the gate checks take it for an undefined leaf. -/
theorem retryWithoutReloadRaisesGp : Obligations.RetryWithoutReloadRaisesGp := by
  unfold Obligations.RetryWithoutReloadRaisesGp
  intro i s t h hzf ht
  obtain ⟨result, hcompleted, -⟩ := completionFrame i s t h
  obtain ⟨hpermitted, -⟩ := leafSelected_of_exec_next i s t h
  exact undefinedLeafRaisesGp t (permitted_of_completedAs s t result hcompleted hpermitted ht)
    (rax_low_ne_zero_of_completedAs_zf s t result hcompleted hzf)

end Sys2Proof.Machine
end

section
/-! PROOFS. The end of a processor's run: its turn (O6), its state from then on (O8), and that it is the only end (O9). -/

namespace Sys2Proof.Machine

/-! ## The turn of an ended processor -/

/-- A run that has not ended is one whose program counter is elsewhere than at the program's end. -/
theorem Processor.ended_eq_false_iff (p : Processor) :
    p.ended = false ↔ p.pc.toNat ≠ p.program.base + p.program.length :=
  Bool.eq_false_iff.trans (not_congr p.ended_iff)

/-- The turn of an ended processor hands over while another run goes on (R185). -/
theorem endedTurn_of_exists (s : State) (h : ∃ p ∈ s.others, p.ended = false) : endedTurn s = .next (handOver s) := by
  refine if_neg fun hall => ?_
  obtain ⟨p, hp, hended⟩ := h
  exact Bool.eq_false_iff.mp hended (List.all_eq_true.mp hall p hp)

/-- The turn of an ended processor is refused once every run has ended (R185). -/
theorem endedTurn_of_forall (s : State) (h : ∀ p ∈ s.others, p.ended = true) : endedTurn s = .refused .endOfProgram :=
  if_pos (List.all_eq_true.mpr h)

/-- Where nothing is fetched and the run has not ended, the step refuses the place (R185). -/
theorem step_of_fetch_nil (s : State) (hended : s.cpu.ended = false) (h : fetchBytes s = []) :
    step s = .refused .outsideProgram := by
  refine step_of_decode_error s .noByte hended ?_
  rw [h]
  rfl

/-- Settles O6: at its end a processor's step is its turn, and outside its program there is nothing to fetch. -/
theorem stepAtTheProgramEnd : Obligations.StepAtTheProgramEnd := by
  unfold Obligations.StepAtTheProgramEnd
  intro s
  refine ⟨fun hpc => ?_, fun houtside => ?_⟩
  · rw [step_of_ended s ((Processor.ended_iff _).mpr hpc)]
    constructor
    · rintro ⟨p, hp, hpc⟩
      exact endedTurn_of_exists s ⟨p, hp, p.ended_eq_false_iff.mpr hpc⟩
    · intro hothers
      exact endedTurn_of_forall s fun p hp => p.ended_iff.mpr (hothers p hp)
  · have not_ended : s.cpu.ended = false := s.cpu.ended_eq_false_iff.mpr (by omega)
    exact step_of_fetch_nil s not_ended (fetchBytes_outside s (houtside.imp_right Nat.le_of_lt))

/-! ## A processor that has ended -/

/-- An instruction leaves the processors that wait as they are (R20). -/
theorem exec_others (i : Instr) (s t : State) (h : exec i s = .next t) : t.others = s.others := by
  obtain ⟨_, ⟨-, -, -, hrest⟩, -⟩ := completionFrame i s t h
  rw [hrest]

/-- An ended processor is still there, as it was, after a step of the machine: it executes nothing itself, and waits while
another executes. -/
theorem ended_mem_processors_of_step (s t : State) (p : Processor) (hp : p ∈ s.processors) (hended : p.ended = true)
    (h : step s = .next t) : p ∈ t.processors := by
  obtain ⟨u, rfl, hu⟩ := step_next s t h
  refine (handOver_processors_perm u).mem_iff.mpr ?_
  obtain ⟨-, rfl⟩ | ⟨hrunning, i, hexec⟩ := hu
  · exact hp
  · obtain rfl | hwaits := List.mem_cons.mp hp
    · exact absurd hended (Bool.eq_false_iff.mp hrunning)
    · exact List.mem_cons_of_mem _ (exec_others i s u hexec ▸ hwaits)

/-- Settles O8: what every step keeps, a run keeps. -/
theorem endedProcessorStays : Obligations.EndedProcessorStays := by
  unfold Obligations.EndedProcessorStays
  intro n s t p hp hpc h
  have hended : p.ended = true := p.ended_iff.mpr hpc
  exact run_keeps Sys2Proof.core (fun u => p ∈ u.processors)
    (fun u v hu => ended_mem_processors_of_step u v p hu hended) n s t hp h

/-! ## Runs of one length and of another -/

/-- A run of one step more is a step and the run from there. -/
theorem run_succ_eq_next_iff (M : Host.Core) (n : Nat) (s t : M.State) :
    M.run (n + 1) s = .next t ↔ ∃ u, M.step s = .next u ∧ M.run n u = .next t := by
  rw [Host.Core.run]
  cases M.step s <;> simp

/-- A run is its first steps and the run from there. -/
theorem run_add_eq_next_iff (M : Host.Core) (m n : Nat) (s t : M.State) :
    M.run (m + n) s = .next t ↔ ∃ u, M.run m s = .next u ∧ M.run n u = .next t := by
  induction m generalizing s with
  | zero => simp [Host.Core.run]
  | succ m ih =>
    rw [Nat.add_right_comm, run_succ_eq_next_iff]
    simp only [ih, run_succ_eq_next_iff]
    exact ⟨fun ⟨v, hv, u, hu, hrest⟩ => ⟨u, ⟨v, hv, hu⟩, hrest⟩, fun ⟨u, ⟨v, hv, hu⟩, hrest⟩ => ⟨v, hv, u, hu, hrest⟩⟩

/-- Two runs from one state: the longer goes on from where the shorter stands. -/
theorem run_sub_of_le (M : Host.Core) (m n : Nat) (s t u : M.State) (hle : m ≤ n) (hm : M.run m s = .next t)
    (hn : M.run n s = .next u) : M.run (n - m) t = .next u := by
  rw [← Nat.add_sub_cancel' hle, run_add_eq_next_iff] at hn
  obtain ⟨v, hv, hrest⟩ := hn
  obtain rfl := Host.Outcome.next.inj (hm.symm.trans hv)
  exact hrest

/-- A machine that has stopped goes no further: no run from the same state is longer. -/
theorem run_le_of_stopped (M : Host.Core) (m n : Nat) (s u t : M.State) (hm : M.run m s = .next u)
    (hstop : ∀ v, M.step u ≠ .next v) (hn : M.run n s = .next t) : n ≤ m := by
  by_contra hlonger
  have hlt : m < n := Nat.lt_of_not_le hlonger
  have goes_on := run_sub_of_le M m n s u t hlt.le hm hn
  obtain ⟨k, hk⟩ := Nat.exists_eq_add_one_of_ne_zero (Nat.sub_ne_zero_of_lt hlt)
  rw [hk, run_succ_eq_next_iff] at goes_on
  obtain ⟨w, hstep, -⟩ := goes_on
  exact hstop w hstep

/-! ## The two ends of a run -/

/-- A run from a well-formed state leads to a well-formed state. -/
theorem run_keeps_legal (n : Nat) (s t : State) (hs : s.legal) (h : Host.Core.run Sys2Proof.core n s = .next t) :
    t.legal :=
  run_keeps Sys2Proof.core State.legal stepKeepsLegal n s t hs h

/-- In a well-formed state a number names one processor. -/
theorem eq_of_number_eq_of_legal (s : State) (hs : s.legal) (p q : Processor) (hp : p ∈ s.processors)
    (hq : q ∈ s.processors) (h : p.number = q.number) : p = q := by
  obtain ⟨-, -, -, -, hnumbers⟩ := hs
  exact List.inj_on_of_nodup_map hnumbers hp hq h

/-- Settles O9: the machine that stopped goes no further, so the successful end comes no later than the stop; there the
processor is still at its end, and is the one whose turn it is, which has not ended. -/
theorem runEndsInOneWay : Obligations.RunEndsInOneWay := by
  unfold Obligations.RunEndsInOneWay
  rintro k n m s t hs ⟨hrun, p, hp, hnumber, hended⟩ ⟨u, hstopped, hturn, hrunning, hstop⟩
  have end_first : n ≤ m := run_le_of_stopped Sys2Proof.core m n s u t hstopped hstop hrun
  have goes_on := run_sub_of_le Sys2Proof.core n m s t u end_first hrun hstopped
  have stays : p ∈ u.processors := endedProcessorStays _ t u p hp (p.ended_iff.mp hended) goes_on
  have at_turn : p = u.cpu := eq_of_number_eq_of_legal u (run_keeps_legal m s u hs hstopped) p u.cpu stays
    List.mem_cons_self (hnumber.trans hturn.symm)
  rw [at_turn, hrunning] at hended
  cases hended

end Sys2Proof.Machine
end
